-- ==== Sys2Proof/Word.lean ====
section
/-!
DEFINITION. The two word types of the machine (00_scope.md R4, R7, R8): registers, literals and memory
offsets are 64-bit values, a memory cell is a byte.
-/

namespace Sys2Proof

/-- One byte of memory or of the instruction stream. -/
abbrev Byte := BitVec 8

/-- A `u64`: a register's content, a literal, an address (00_scope.md R4, R8). -/
abbrev Word := BitVec 64

end Sys2Proof
end

