-- ==== Sys2Proof/Syntax.lean ====
section
/-!
DEFINITION. The instructions: one constructor per row of spec/opcode_table.json (30_encoding.md R88, R92), named by the
mnemonic and the class of its last operand (R Register, L Literal, A Address, P Pointer). Register and Pointer operands
hold the id BYTE of the stream, whatever it is: 30_encoding.md R85 checks it when the instruction executes.
-/

namespace Sys2Proof

/-- An instruction as the fetch unit reads it: the opcode-table row and its operand bytes. `d` is the destination, `d2` the
second destination, `s` the source, `t` the jump target (30_encoding.md R88). -/
inductive Instr where
  /-- `JLT`, format `X_A`, opcode bytes `FF00`, 10 bytes, R141. -/
  | jltA (t : Word)
  /-- `JLT`, format `X_P`, opcode bytes `FF01`, 3 bytes, R141. -/
  | jltP (t : Byte)
  /-- `JLE`, format `X_A`, opcode bytes `FF02`, 10 bytes, R142. -/
  | jleA (t : Word)
  /-- `JLE`, format `X_P`, opcode bytes `FF03`, 3 bytes, R142. -/
  | jleP (t : Byte)
  /-- `JGT`, format `X_A`, opcode bytes `FF04`, 10 bytes, R143. -/
  | jgtA (t : Word)
  /-- `JGT`, format `X_P`, opcode bytes `FF05`, 3 bytes, R143. -/
  | jgtP (t : Byte)
  /-- `JGE`, format `X_A`, opcode bytes `FF06`, 10 bytes, R144. -/
  | jgeA (t : Word)
  /-- `JGE`, format `X_P`, opcode bytes `FF07`, 3 bytes, R144. -/
  | jgeP (t : Byte)
  /-- `JSI`, format `X_A`, opcode bytes `FF08`, 10 bytes, R145. -/
  | jsiA (t : Word)
  /-- `JSI`, format `X_P`, opcode bytes `FF09`, 3 bytes, R145. -/
  | jsiP (t : Byte)
  /-- `JNS`, format `X_A`, opcode bytes `FF0A`, 10 bytes, R146. -/
  | jnsA (t : Word)
  /-- `JNS`, format `X_P`, opcode bytes `FF0B`, 3 bytes, R146. -/
  | jnsP (t : Byte)
  /-- `JOV`, format `X_A`, opcode bytes `FF0C`, 10 bytes, R147. -/
  | jovA (t : Word)
  /-- `JOV`, format `X_P`, opcode bytes `FF0D`, 3 bytes, R147. -/
  | jovP (t : Byte)
  /-- `JNO`, format `X_A`, opcode bytes `FF0E`, 10 bytes, R148. -/
  | jnoA (t : Word)
  /-- `JNO`, format `X_P`, opcode bytes `FF0F`, 3 bytes, R148. -/
  | jnoP (t : Byte)
  /-- `DIV`, format `X_RR`, opcode bytes `FF10`, 4 bytes, R161. -/
  | divR (d : Byte) (s : Byte)
  /-- `DIV`, format `X_RL`, opcode bytes `FF11`, 11 bytes, R161. -/
  | divL (d : Byte) (s : Word)
  /-- `DIV`, format `X_RA`, opcode bytes `FF12`, 11 bytes, R161. -/
  | divA (d : Byte) (s : Word)
  /-- `DIV`, format `X_RP`, opcode bytes `FF13`, 4 bytes, R161. -/
  | divP (d : Byte) (s : Byte)
  /-- `DVR`, format `X_RRR`, opcode bytes `FF14`, 5 bytes, R162. -/
  | dvrR (d : Byte) (d2 : Byte) (s : Byte)
  /-- `DVR`, format `X_RRL`, opcode bytes `FF15`, 12 bytes, R162. -/
  | dvrL (d : Byte) (d2 : Byte) (s : Word)
  /-- `DVR`, format `X_RRA`, opcode bytes `FF16`, 12 bytes, R162. -/
  | dvrA (d : Byte) (d2 : Byte) (s : Word)
  /-- `DVR`, format `X_RRP`, opcode bytes `FF17`, 5 bytes, R162. -/
  | dvrP (d : Byte) (d2 : Byte) (s : Byte)
  /-- `REM`, format `X_RR`, opcode bytes `FF18`, 4 bytes, R163. -/
  | remR (d : Byte) (s : Byte)
  /-- `REM`, format `X_RL`, opcode bytes `FF19`, 11 bytes, R163. -/
  | remL (d : Byte) (s : Word)
  /-- `REM`, format `X_RA`, opcode bytes `FF1A`, 11 bytes, R163. -/
  | remA (d : Byte) (s : Word)
  /-- `REM`, format `X_RP`, opcode bytes `FF1B`, 4 bytes, R163. -/
  | remP (d : Byte) (s : Byte)
  /-- `SHR`, format `X_RR`, opcode bytes `FF20`, 4 bytes, R171. -/
  | shrR (d : Byte) (s : Byte)
  /-- `SHR`, format `X_RL`, opcode bytes `FF21`, 11 bytes, R171. -/
  | shrL (d : Byte) (s : Word)
  /-- `SHR`, format `X_RA`, opcode bytes `FF22`, 11 bytes, R171. -/
  | shrA (d : Byte) (s : Word)
  /-- `SHR`, format `X_RP`, opcode bytes `FF23`, 4 bytes, R171. -/
  | shrP (d : Byte) (s : Byte)
  /-- `MVB`, format `X_RR`, opcode bytes `FF30`, 4 bytes, R181. -/
  | mvbR (d : Byte) (s : Byte)
  /-- `MVB`, format `X_RL`, opcode bytes `FF31`, 11 bytes, R181. -/
  | mvbL (d : Byte) (s : Word)
  /-- `MVB`, format `X_RA`, opcode bytes `FF32`, 11 bytes, R181. -/
  | mvbA (d : Byte) (s : Word)
  /-- `MVB`, format `X_RP`, opcode bytes `FF33`, 4 bytes, R181. -/
  | mvbP (d : Byte) (s : Byte)
  /-- `MVW`, format `X_RR`, opcode bytes `FF34`, 4 bytes, R182. -/
  | mvwR (d : Byte) (s : Byte)
  /-- `MVW`, format `X_RL`, opcode bytes `FF35`, 11 bytes, R182. -/
  | mvwL (d : Byte) (s : Word)
  /-- `MVW`, format `X_RA`, opcode bytes `FF36`, 11 bytes, R182. -/
  | mvwA (d : Byte) (s : Word)
  /-- `MVW`, format `X_RP`, opcode bytes `FF37`, 4 bytes, R182. -/
  | mvwP (d : Byte) (s : Byte)
  /-- `MVD`, format `X_RR`, opcode bytes `FF40`, 4 bytes, R183. -/
  | mvdR (d : Byte) (s : Byte)
  /-- `MVD`, format `X_RL`, opcode bytes `FF41`, 11 bytes, R183. -/
  | mvdL (d : Byte) (s : Word)
  /-- `MVD`, format `X_RA`, opcode bytes `FF42`, 11 bytes, R183. -/
  | mvdA (d : Byte) (s : Word)
  /-- `MVD`, format `X_RP`, opcode bytes `FF43`, 4 bytes, R183. -/
  | mvdP (d : Byte) (s : Byte)
  /-- `WCN`, format `X_R`, opcode bytes `FF50`, 3 bytes, R203. -/
  | wcnR (s : Byte)
  /-- `WCN`, format `X_L`, opcode bytes `FF51`, 10 bytes, R203. -/
  | wcnL (s : Word)
  /-- `WCN`, format `X_A`, opcode bytes `FF52`, 10 bytes, R203. -/
  | wcnA (s : Word)
  /-- `WCN`, format `X_P`, opcode bytes `FF53`, 3 bytes, R203. -/
  | wcnP (s : Byte)
  /-- `WCB`, format `X_R`, opcode bytes `FF54`, 3 bytes, R204. -/
  | wcbR (s : Byte)
  /-- `WCB`, format `X_L`, opcode bytes `FF55`, 10 bytes, R204. -/
  | wcbL (s : Word)
  /-- `WCB`, format `X_A`, opcode bytes `FF56`, 10 bytes, R204. -/
  | wcbA (s : Word)
  /-- `WCB`, format `X_P`, opcode bytes `FF57`, 3 bytes, R204. -/
  | wcbP (s : Byte)
  /-- `WFN`, format `X_R`, opcode bytes `FF60`, 3 bytes, R205. -/
  | wfnR (s : Byte)
  /-- `WFN`, format `X_L`, opcode bytes `FF61`, 10 bytes, R205. -/
  | wfnL (s : Word)
  /-- `WFN`, format `X_A`, opcode bytes `FF62`, 10 bytes, R205. -/
  | wfnA (s : Word)
  /-- `WFN`, format `X_P`, opcode bytes `FF63`, 3 bytes, R205. -/
  | wfnP (s : Byte)
  /-- `WFB`, format `X_R`, opcode bytes `FF64`, 3 bytes, R206. -/
  | wfbR (s : Byte)
  /-- `WFB`, format `X_L`, opcode bytes `FF65`, 10 bytes, R206. -/
  | wfbL (s : Word)
  /-- `WFB`, format `X_A`, opcode bytes `FF66`, 10 bytes, R206. -/
  | wfbA (s : Word)
  /-- `WFB`, format `X_P`, opcode bytes `FF67`, 3 bytes, R206. -/
  | wfbP (s : Byte)
  /-- `EXB`, format `X_R`, opcode bytes `FF70`, 3 bytes, R191. -/
  | exb (d : Byte)
  /-- `EXW`, format `X_R`, opcode bytes `FF71`, 3 bytes, R192. -/
  | exw (d : Byte)
  /-- `EXD`, format `X_R`, opcode bytes `FF72`, 3 bytes, R193. -/
  | exd (d : Byte)
  /-- `NEG`, format `X_R`, opcode bytes `FF80`, 3 bytes, R194. -/
  | neg (d : Byte)
  /-- `HLT`, format `B0`, opcode bytes `00`, 1 bytes, R210. -/
  | hlt
  deriving DecidableEq, Repr

end Sys2Proof
end

