-- ==== Sys2Proof/WellFormed.lean ====
section
/-!
DEFINITION. Well-formed instructions: every Register and Pointer operand byte names one of the sixteen registers
(10_state.md R21, 30_encoding.md R85). An instruction that is not well-formed raises InvalidRegister when it executes
(40_fetch_decode_operands.md R113).
-/

namespace Sys2Proof

/-- The id bytes of the Register and Pointer operands, in operand order (40_fetch_decode_operands.md R113). -/
def Instr.regIds : Instr → List Byte
  | .jltA _ => []
  | .jltP t => [t]
  | .jleA _ => []
  | .jleP t => [t]
  | .jgtA _ => []
  | .jgtP t => [t]
  | .jgeA _ => []
  | .jgeP t => [t]
  | .jsiA _ => []
  | .jsiP t => [t]
  | .jnsA _ => []
  | .jnsP t => [t]
  | .jovA _ => []
  | .jovP t => [t]
  | .jnoA _ => []
  | .jnoP t => [t]
  | .divR d s => [d, s]
  | .divL d _ => [d]
  | .divA d _ => [d]
  | .divP d s => [d, s]
  | .dvrR d d2 s => [d, d2, s]
  | .dvrL d d2 _ => [d, d2]
  | .dvrA d d2 _ => [d, d2]
  | .dvrP d d2 s => [d, d2, s]
  | .remR d s => [d, s]
  | .remL d _ => [d]
  | .remA d _ => [d]
  | .remP d s => [d, s]
  | .shrR d s => [d, s]
  | .shrL d _ => [d]
  | .shrA d _ => [d]
  | .shrP d s => [d, s]
  | .mvbR d s => [d, s]
  | .mvbL d _ => [d]
  | .mvbA d _ => [d]
  | .mvbP d s => [d, s]
  | .mvwR d s => [d, s]
  | .mvwL d _ => [d]
  | .mvwA d _ => [d]
  | .mvwP d s => [d, s]
  | .mvdR d s => [d, s]
  | .mvdL d _ => [d]
  | .mvdA d _ => [d]
  | .mvdP d s => [d, s]
  | .wcnR s => [s]
  | .wcnL _ => []
  | .wcnA _ => []
  | .wcnP s => [s]
  | .wcbR s => [s]
  | .wcbL _ => []
  | .wcbA _ => []
  | .wcbP s => [s]
  | .wfnR s => [s]
  | .wfnL _ => []
  | .wfnA _ => []
  | .wfnP s => [s]
  | .wfbR s => [s]
  | .wfbL _ => []
  | .wfbA _ => []
  | .wfbP s => [s]
  | .exb d => [d]
  | .exw d => [d]
  | .exd d => [d]
  | .neg d => [d]
  | .hlt => []

/-- Every register id byte is in `0x00 .. 0x0F` (30_encoding.md R85). -/
def Instr.WellFormed (i : Instr) : Bool :=
  i.regIds.all fun id => decide (id.toNat < 16)

end Sys2Proof
end

