-- ==== Sys2Proof/Decode.lean ====
section
/-!
DEFINITION. The byte order of the machine, the decoder of 30_encoding.md R90 as a lookup in the opcode table of R88, and
the encoder written from the same table.
-/

namespace Sys2Proof

/-- The unsigned value of a byte sequence, the first byte holding bits 7:0 (20_memory.md R52). -/
def leNat : List Byte → Nat
  | [] => 0
  | b :: bs => b.toNat + 256 * leNat bs

/-- The low `8 * n` bits of `v` as `n` bytes, bits 7:0 first (20_memory.md R52, R55). -/
def leBytes : Nat → Nat → List Byte
  | 0, _ => []
  | n + 1, v => BitVec.ofNat 8 v :: leBytes n (v / 256)

/-- The `u64` of a byte sequence of at most eight bytes (30_encoding.md R86, 20_memory.md R54). -/
def leWord (bs : List Byte) : Word := BitVec.ofNat 64 (leNat bs)

/-- Why no instruction can be read from some bytes. -/
inductive Reject where
  /-- The bytes end before the instruction does: a fetch beyond the end of memory (40_fetch_decode_operands.md R111, R112). -/
  | truncated
  /-- The opcode bytes are no row of the table (30_encoding.md R91, R92). -/
  | invalidOpcode
  deriving DecidableEq, Repr

/-- The operand bytes after the two opcode bytes (30_encoding.md R82, R83). A Pointer has the layout of a Register and an
Address that of a Literal: only the sub-opcode tells them apart. -/
inductive Layout where
  /-- `X_R` and `X_P`. -/
  | xR (mk : Byte → Instr)
  /-- `X_L` and `X_A`. -/
  | xL (mk : Word → Instr)
  /-- `X_RR` and `X_RP`. -/
  | xRR (mk : Byte → Byte → Instr)
  /-- `X_RL` and `X_RA`. -/
  | xRL (mk : Byte → Word → Instr)
  /-- `X_RRR` and `X_RRP`. -/
  | xRRR (mk : Byte → Byte → Byte → Instr)
  /-- `X_RRL` and `X_RRA`. -/
  | xRRL (mk : Byte → Byte → Word → Instr)

/-- The eight bytes of a Literal or Address operand and the bytes after them (30_encoding.md R86, R87). -/
def takeWord : List Byte → Option (Word × List Byte)
  | b0 :: b1 :: b2 :: b3 :: b4 :: b5 :: b6 :: b7 :: rest => some (leWord [b0, b1, b2, b3, b4, b5, b6, b7], rest)
  | _ => none

/-- Reads the operand bytes of one layout, operand 1 first; `none` when they are not all there. -/
def Layout.parse : Layout → List Byte → Option (Instr × List Byte)
  | .xR mk, a :: rest => some (mk a, rest)
  | .xL mk, bs => (takeWord bs).map fun p => (mk p.1, p.2)
  | .xRR mk, a :: b :: rest => some (mk a b, rest)
  | .xRL mk, a :: bs => (takeWord bs).map fun p => (mk a p.1, p.2)
  | .xRRR mk, a :: b :: c :: rest => some (mk a b c, rest)
  | .xRRL mk, a :: b :: bs => (takeWord bs).map fun p => (mk a b p.1, p.2)
  | _, _ => none

/-- The conditional jumps, sub-opcodes `0x00 .. 0x0F` (30_encoding.md R88). -/
def opcodeTable_jumps : List (Byte × Layout) :=
  [(0x00, .xL .jltA), (0x01, .xR .jltP), (0x02, .xL .jleA), (0x03, .xR .jleP),
   (0x04, .xL .jgtA), (0x05, .xR .jgtP), (0x06, .xL .jgeA), (0x07, .xR .jgeP),
   (0x08, .xL .jsiA), (0x09, .xR .jsiP), (0x0A, .xL .jnsA), (0x0B, .xR .jnsP),
   (0x0C, .xL .jovA), (0x0D, .xR .jovP), (0x0E, .xL .jnoA), (0x0F, .xR .jnoP)]

/-- Signed division, `0x10 .. 0x1B` (30_encoding.md R88). -/
def opcodeTable_division : List (Byte × Layout) :=
  [(0x10, .xRR .divR), (0x11, .xRL .divL), (0x12, .xRL .divA), (0x13, .xRR .divP),
   (0x14, .xRRR .dvrR), (0x15, .xRRL .dvrL), (0x16, .xRRL .dvrA), (0x17, .xRRR .dvrP),
   (0x18, .xRR .remR), (0x19, .xRL .remL), (0x1A, .xRL .remA), (0x1B, .xRR .remP)]

/-- Signed right shift, `0x20 .. 0x23` (30_encoding.md R88). -/
def opcodeTable_shift : List (Byte × Layout) :=
  [(0x20, .xRR .shrR), (0x21, .xRL .shrL), (0x22, .xRL .shrA), (0x23, .xRR .shrP)]

/-- The narrowing moves, `0x30 .. 0x37` and `0x40 .. 0x43` (30_encoding.md R88). -/
def opcodeTable_moves : List (Byte × Layout) :=
  [(0x30, .xRR .mvbR), (0x31, .xRL .mvbL), (0x32, .xRL .mvbA), (0x33, .xRR .mvbP),
   (0x34, .xRR .mvwR), (0x35, .xRL .mvwL), (0x36, .xRL .mvwA), (0x37, .xRR .mvwP),
   (0x40, .xRR .mvdR), (0x41, .xRL .mvdL), (0x42, .xRL .mvdA), (0x43, .xRR .mvdP)]

/-- The decimal writes, `0x50 .. 0x57` and `0x60 .. 0x67` (30_encoding.md R88). -/
def opcodeTable_writes : List (Byte × Layout) :=
  [(0x50, .xR .wcnR), (0x51, .xL .wcnL), (0x52, .xL .wcnA), (0x53, .xR .wcnP),
   (0x54, .xR .wcbR), (0x55, .xL .wcbL), (0x56, .xL .wcbA), (0x57, .xR .wcbP),
   (0x60, .xR .wfnR), (0x61, .xL .wfnL), (0x62, .xL .wfnA), (0x63, .xR .wfnP),
   (0x64, .xR .wfbR), (0x65, .xL .wfbL), (0x66, .xL .wfbA), (0x67, .xR .wfbP)]

/-- Sign extension and negation, `0x70 .. 0x72` and `0x80` (30_encoding.md R88). -/
def opcodeTable_unary : List (Byte × Layout) :=
  [(0x70, .xR .exb), (0x71, .xR .exw), (0x72, .xR .exd), (0x80, .xR .neg)]

/-- The sub-opcode assignment of the extended page, as data (30_encoding.md R88, decision D6; UNVERIFIED, log entry 4). -/
def opcodeTable : List (Byte × Layout) :=
  opcodeTable_jumps ++ opcodeTable_division ++ opcodeTable_shift ++ opcodeTable_moves ++ opcodeTable_writes ++
    opcodeTable_unary

/-- The row of a sub-opcode, if there is one (30_encoding.md R89: decode by table lookup). -/
def lookupRow : List (Byte × Layout) → Byte → Option Layout
  | [], _ => none
  | (sub, layout) :: rows, b => if b = sub then some layout else lookupRow rows b

/-- The instruction at the head of a byte sequence and the bytes after it (30_encoding.md R90). The second opcode byte is
needed before the table is looked up, and the operand bytes after (40_fetch_decode_operands.md R111, R112). -/
def decode : List Byte → Except Reject (Instr × List Byte)
  | [] => .error .truncated
  | b0 :: bs =>
    if b0 = 0xFF then
      match bs with
      | [] => .error .truncated
      | b1 :: operands =>
        match lookupRow opcodeTable b1 with
        | none => .error .invalidOpcode
        | some layout =>
          match layout.parse operands with
          | none => .error .truncated
          | some r => .ok r
    else if b0 = 0x00 then .ok (.hlt, bs)
    else .error .invalidOpcode

/-- The longest instruction, in bytes (30_encoding.md R80). -/
def maxLength : Nat := 12

/-- The encoded length `len` in bytes, by format (30_encoding.md R83, R84). -/
def Instr.length : Instr → Nat
  | .jltA _ => 10
  | .jltP _ => 3
  | .jleA _ => 10
  | .jleP _ => 3
  | .jgtA _ => 10
  | .jgtP _ => 3
  | .jgeA _ => 10
  | .jgeP _ => 3
  | .jsiA _ => 10
  | .jsiP _ => 3
  | .jnsA _ => 10
  | .jnsP _ => 3
  | .jovA _ => 10
  | .jovP _ => 3
  | .jnoA _ => 10
  | .jnoP _ => 3
  | .divR _ _ => 4
  | .divL _ _ => 11
  | .divA _ _ => 11
  | .divP _ _ => 4
  | .dvrR _ _ _ => 5
  | .dvrL _ _ _ => 12
  | .dvrA _ _ _ => 12
  | .dvrP _ _ _ => 5
  | .remR _ _ => 4
  | .remL _ _ => 11
  | .remA _ _ => 11
  | .remP _ _ => 4
  | .shrR _ _ => 4
  | .shrL _ _ => 11
  | .shrA _ _ => 11
  | .shrP _ _ => 4
  | .mvbR _ _ => 4
  | .mvbL _ _ => 11
  | .mvbA _ _ => 11
  | .mvbP _ _ => 4
  | .mvwR _ _ => 4
  | .mvwL _ _ => 11
  | .mvwA _ _ => 11
  | .mvwP _ _ => 4
  | .mvdR _ _ => 4
  | .mvdL _ _ => 11
  | .mvdA _ _ => 11
  | .mvdP _ _ => 4
  | .wcnR _ => 3
  | .wcnL _ => 10
  | .wcnA _ => 10
  | .wcnP _ => 3
  | .wcbR _ => 3
  | .wcbL _ => 10
  | .wcbA _ => 10
  | .wcbP _ => 3
  | .wfnR _ => 3
  | .wfnL _ => 10
  | .wfnA _ => 10
  | .wfnP _ => 3
  | .wfbR _ => 3
  | .wfbL _ => 10
  | .wfbA _ => 10
  | .wfbP _ => 3
  | .exb _ => 3
  | .exw _ => 3
  | .exd _ => 3
  | .neg _ => 3
  | .hlt => 1

/-- The bytes of an instruction, in stream order (30_encoding.md R80 to R88, R92). -/
def encode : Instr → List Byte
  | .jltA t => [0xFF, 0x00] ++ leBytes 8 t.toNat
  | .jltP t => [0xFF, 0x01, t]
  | .jleA t => [0xFF, 0x02] ++ leBytes 8 t.toNat
  | .jleP t => [0xFF, 0x03, t]
  | .jgtA t => [0xFF, 0x04] ++ leBytes 8 t.toNat
  | .jgtP t => [0xFF, 0x05, t]
  | .jgeA t => [0xFF, 0x06] ++ leBytes 8 t.toNat
  | .jgeP t => [0xFF, 0x07, t]
  | .jsiA t => [0xFF, 0x08] ++ leBytes 8 t.toNat
  | .jsiP t => [0xFF, 0x09, t]
  | .jnsA t => [0xFF, 0x0A] ++ leBytes 8 t.toNat
  | .jnsP t => [0xFF, 0x0B, t]
  | .jovA t => [0xFF, 0x0C] ++ leBytes 8 t.toNat
  | .jovP t => [0xFF, 0x0D, t]
  | .jnoA t => [0xFF, 0x0E] ++ leBytes 8 t.toNat
  | .jnoP t => [0xFF, 0x0F, t]
  | .divR d s => [0xFF, 0x10, d, s]
  | .divL d s => [0xFF, 0x11, d] ++ leBytes 8 s.toNat
  | .divA d s => [0xFF, 0x12, d] ++ leBytes 8 s.toNat
  | .divP d s => [0xFF, 0x13, d, s]
  | .dvrR d d2 s => [0xFF, 0x14, d, d2, s]
  | .dvrL d d2 s => [0xFF, 0x15, d, d2] ++ leBytes 8 s.toNat
  | .dvrA d d2 s => [0xFF, 0x16, d, d2] ++ leBytes 8 s.toNat
  | .dvrP d d2 s => [0xFF, 0x17, d, d2, s]
  | .remR d s => [0xFF, 0x18, d, s]
  | .remL d s => [0xFF, 0x19, d] ++ leBytes 8 s.toNat
  | .remA d s => [0xFF, 0x1A, d] ++ leBytes 8 s.toNat
  | .remP d s => [0xFF, 0x1B, d, s]
  | .shrR d s => [0xFF, 0x20, d, s]
  | .shrL d s => [0xFF, 0x21, d] ++ leBytes 8 s.toNat
  | .shrA d s => [0xFF, 0x22, d] ++ leBytes 8 s.toNat
  | .shrP d s => [0xFF, 0x23, d, s]
  | .mvbR d s => [0xFF, 0x30, d, s]
  | .mvbL d s => [0xFF, 0x31, d] ++ leBytes 8 s.toNat
  | .mvbA d s => [0xFF, 0x32, d] ++ leBytes 8 s.toNat
  | .mvbP d s => [0xFF, 0x33, d, s]
  | .mvwR d s => [0xFF, 0x34, d, s]
  | .mvwL d s => [0xFF, 0x35, d] ++ leBytes 8 s.toNat
  | .mvwA d s => [0xFF, 0x36, d] ++ leBytes 8 s.toNat
  | .mvwP d s => [0xFF, 0x37, d, s]
  | .mvdR d s => [0xFF, 0x40, d, s]
  | .mvdL d s => [0xFF, 0x41, d] ++ leBytes 8 s.toNat
  | .mvdA d s => [0xFF, 0x42, d] ++ leBytes 8 s.toNat
  | .mvdP d s => [0xFF, 0x43, d, s]
  | .wcnR s => [0xFF, 0x50, s]
  | .wcnL s => [0xFF, 0x51] ++ leBytes 8 s.toNat
  | .wcnA s => [0xFF, 0x52] ++ leBytes 8 s.toNat
  | .wcnP s => [0xFF, 0x53, s]
  | .wcbR s => [0xFF, 0x54, s]
  | .wcbL s => [0xFF, 0x55] ++ leBytes 8 s.toNat
  | .wcbA s => [0xFF, 0x56] ++ leBytes 8 s.toNat
  | .wcbP s => [0xFF, 0x57, s]
  | .wfnR s => [0xFF, 0x60, s]
  | .wfnL s => [0xFF, 0x61] ++ leBytes 8 s.toNat
  | .wfnA s => [0xFF, 0x62] ++ leBytes 8 s.toNat
  | .wfnP s => [0xFF, 0x63, s]
  | .wfbR s => [0xFF, 0x64, s]
  | .wfbL s => [0xFF, 0x65] ++ leBytes 8 s.toNat
  | .wfbA s => [0xFF, 0x66] ++ leBytes 8 s.toNat
  | .wfbP s => [0xFF, 0x67, s]
  | .exb d => [0xFF, 0x70, d]
  | .exw d => [0xFF, 0x71, d]
  | .exd d => [0xFF, 0x72, d]
  | .neg d => [0xFF, 0x80, d]
  | .hlt => [0x00]

/-- The instruction the decoder reads from the bits `w`, byte 0 of the stream in bits 7:0, with every bit from `nbits` up
zero. -/
def decodeTableWord (nbits w : Nat) : Option Instr :=
  match decode (leBytes maxLength (w % 2 ^ nbits)) with
  | .ok (i, _) => some i
  | .error _ => none

end Sys2Proof
end

