-- ==== Sys2Proof/Config.lean ====
section
/-!
DEFINITION. What the caller of the core fixes once (00_scope.md R5). The spec leaves no value undefined
(70_reset_and_hazards.md R278), so there is no free value here; the two configuration functions whose default the spec
states, `shrCarry` and `divMinByMinusOne`, stand in Machine/Parameters.lean.
-/

namespace Sys2Proof

/-- `MEMSIZE`, the length of memory in bytes: any natural number below 2^64 (00_scope.md R5). -/
abbrev MemSize := Fin 18446744073709551616

/-- The `MEMSIZE` of `State.reset`. The spec states no default (00_scope.md R5), so this is the largest value it admits.
DESIGN CHOICE, unsafe, log entry 1: no statement rests on it. -/
def Config.resetMemSize : MemSize := 18446744073709551615

end Sys2Proof
end

