-- ==== Sys2Proof/Machine/State.lean ====
section
/-!
DEFINITION. The machine's state, its faults and refusals, and its reset (10_state.md R20, R40; 60_exceptions.md R240;
70_reset_and_hazards.md R270).
-/

namespace Sys2Proof.Machine

/-- A register of the file `x[0..15]`, by its id (10_state.md R21). -/
abbrev Reg := Fin 16

/-- Memory as (offset, byte) cells, offsets strictly rising, no cell holding what an unlisted offset reads as. -/
abbrev Memory := List Host.Cell

/-- Which of the two completing outcomes of 00_scope.md R10 a step had. -/
inductive StepReport where
  /-- `next(s')`: the instruction completed. -/
  | next
  /-- `halted(s')`: the instruction was `HLT`; the run loop stops. -/
  | halted
  deriving DecidableEq, Repr

/-- Everything the spec gives the machine (10_state.md R20), and `report`, the model's own. -/
structure State where
  /-- The register file; `x[0]` is the program counter and `x[3]` the status-flag register (10_state.md R21). -/
  regs : Vector Word 16
  /-- `MEMSIZE`, constant after construction (00_scope.md R5). -/
  memSize : MemSize
  /-- The bytes `mem[0 .. MEMSIZE-1]` (10_state.md R36). -/
  mem : Memory
  /-- `console_out` (50_interfaces.md R224). -/
  consoleOut : List Byte
  /-- `file_out` (50_interfaces.md R225). -/
  fileOut : List Byte
  /-- `file_open`, the input bit of the step (50_interfaces.md R226). -/
  fileOpen : Bool
  /-- How the last completed step ended. No instruction reads it. DESIGN CHOICE, safe, log entry 2. -/
  report : StepReport
  deriving DecidableEq, Repr

/-- The six faults (60_exceptions.md R240), without payload (decision D21). Each ends the step with the state unchanged
(R241) and stops the model's machine; that is safe, since the host may only step the same state again (R254). -/
inductive Fault where
  /-- A destination operand names `rpo`: `DIV DVR REM SHR MVB MVW MVD EXB EXW EXD NEG` (R242). Safe. -/
  | illegalDestination
  /-- The divisor is zero: `DIV DVR REM` (R243). Safe. -/
  | divideByZero
  /-- A fetch, or the read of a memory source, goes beyond `MEMSIZE`: every instruction (R244). Safe. -/
  | memoryBounds
  /-- No file sink is open: `WFN WFB` (R245). Safe. -/
  | fileOperation
  /-- The opcode bytes are no row of the table: raised at decode (R246). Safe. -/
  | invalidOpcode
  /-- A Register or Pointer operand byte is `0x10` or more: every instruction with such an operand (R247). Safe. -/
  | invalidRegister
  deriving DecidableEq, Repr

/-- Why the model has no meaning for an instruction. -/
inductive Refusal where
  /-- The instruction is not modelled, by its mnemonic. Only a refused arm of `exec` could raise it, and there is none.
  Safe. -/
  | notModelled (mnemonic : String)
  deriving DecidableEq, Repr

/-- `Construct(MEMSIZE)` (70_reset_and_hazards.md R270, 10_state.md R40): every register 0, the program counter and the
flags among them, every memory byte 0, no file open. Both sinks start empty: DESIGN CHOICE, unsafe, log entry 11. -/
def State.construct (size : MemSize) : State where
  regs := Vector.replicate 16 0
  memSize := size
  mem := []
  consoleOut := []
  fileOut := []
  fileOpen := false
  report := .next

/-- The machine right after reset, with the model's choice of `MEMSIZE` (DESIGN CHOICE, unsafe, log entry 1). -/
def State.reset : State := State.construct Config.resetMemSize

end Sys2Proof.Machine
end

