-- ==== Sys2Proof/Machine/Parameters.lean ====
section
/-!
DEFINITION. The named constants and configuration functions of 00_scope.md R6: register ids, flag masks, `shrCarry` and
`divMinByMinusOne`. The spec gives each by a decision of its own; the log entries named below say so.
-/

namespace Sys2Proof.Machine

/-- The program counter, id `0x00` (10_state.md R21, decision D2; UNVERIFIED, log entry 3). -/
def Reg.rpo : Reg := 0
/-- Plain cell, id `0x01` (10_state.md R35). -/
def Reg.rso : Reg := 1
/-- Plain cell, id `0x02` (10_state.md R35). -/
def Reg.rsb : Reg := 2
/-- The status-flag register, id `0x03` (10_state.md R27, decision D2; UNVERIFIED, log entry 3). -/
def Reg.rsf : Reg := 3
/-- Plain cell, id `0x04` (10_state.md R35). -/
def Reg.rrv : Reg := 4
/-- Plain cell, id `0x05` (10_state.md R35). -/
def Reg.rfp : Reg := 5
/-- General purpose, id `0x06`. -/
def Reg.rg0 : Reg := 6
/-- General purpose, id `0x07`. -/
def Reg.rg1 : Reg := 7
/-- General purpose, id `0x08`. -/
def Reg.rg2 : Reg := 8
/-- General purpose, id `0x09`. -/
def Reg.rg3 : Reg := 9
/-- General purpose, id `0x0A`. -/
def Reg.rg4 : Reg := 10
/-- General purpose, id `0x0B`. -/
def Reg.rg5 : Reg := 11
/-- General purpose, id `0x0C`. -/
def Reg.rg6 : Reg := 12
/-- General purpose, id `0x0D`. -/
def Reg.rg7 : Reg := 13
/-- General purpose, id `0x0E`. -/
def Reg.rg8 : Reg := 14
/-- General purpose, id `0x0F`. -/
def Reg.rg9 : Reg := 15

/-- Zero, bit 0 of `rsf` (10_state.md R28, decision D4; UNVERIFIED, log entry 3, as are the four below). -/
def maskZ : Word := 0x01
/-- Carry, bit 1. -/
def maskC : Word := 0x02
/-- FileEnd, bit 2, sticky. -/
def maskFE : Word := 0x04
/-- Sign, bit 3. -/
def maskS : Word := 0x08
/-- Overflow, bit 4. -/
def maskO : Word := 0x10

/-- The bits `SetFlags` keeps: FileEnd and bits 63:5 (10_state.md R31, R34). -/
def maskSticky : Word := 0xFFFFFFFFFFFFFFE4

/-- The carry of a right shift of `v` by `n`: some bit shifted out differs from the sign bit, all 64 counting as shifted out
for `n >= 64` (43_signed_shift.md R170, decision D15; UNVERIFIED, log entry 5). -/
def shrCarry (v n : Word) : Bool :=
  (List.range (min n.toNat 64)).any fun i => v.getLsbD i != v.msb

/-- Quotient and remainder of `-2^63 / -1`: it wraps, with no fault (42_signed_divide.md R160, decision D14; UNVERIFIED, log
entry 6). The alternative the spec lets a model offer is `.error .divideByZero`. -/
def divMinByMinusOne : Except Fault (Word × Word) := .ok (0x8000000000000000, 0)

end Sys2Proof.Machine
end

