-- ==== Sys2Proof/Machine/Ops.lean ====
section
/-!
DEFINITION. The named operations over registers, memory and sinks, and raising a fault: the only code that reads or writes
a field of State.
-/

namespace Sys2Proof.Machine

/-- `x[i]` (10_state.md R22). During a step `x[RPO]` is still `p0` (R25), so a source naming `rpo` reads `p0`. -/
def State.getReg (s : State) (r : Reg) : Word := s.regs[r]

/-- `x[i] <- v`, all 64 bits (10_state.md R22). -/
def State.setReg (s : State) (r : Reg) (v : Word) : State := { s with regs := s.regs.set r v }

/-- The program counter (10_state.md R24). -/
def State.pc (s : State) : Word := s.getReg .rpo

/-- The sequencer's one write of the program counter, the last action of a completed step, and the outcome the step
reports (40_fetch_decode_operands.md R126; 00_scope.md R10). -/
def State.commitPc (s : State) (target : Word) (how : StepReport) : State :=
  { s.setReg .rpo target with report := how }

/-- `pc <- p0 + len` (40_fetch_decode_operands.md R126). -/
def State.advance (s : State) (len : Nat) : State := s.commitPc (s.pc + BitVec.ofNat 64 len) .next

/-- What an offset that lists no cell reads as (10_state.md R36: zero-initialised). -/
def unlistedByte : Byte := 0

/-- The canonical form of memory: offsets strictly rising, no cell equal to what an unlisted offset reads as. -/
abbrev Memory.wf (m : Memory) : Prop :=
  m.Pairwise (fun c c' => c.1 < c'.1) ∧ ∀ c ∈ m, c.2 ≠ unlistedByte

/-- `mem[a]` (10_state.md R36). -/
def Memory.readByte : Memory → Nat → Byte
  | [], _ => unlistedByte
  | (k, b) :: rest, a => if a = k then b else Memory.readByte rest a

/-- `mem[a] <- b`, in canonical form. -/
def Memory.writeByte : Memory → Nat → Byte → Memory
  | [], a, b => if b = unlistedByte then [] else [(a, b)]
  | (k, c) :: rest, a, b =>
    if a < k then (if b = unlistedByte then (k, c) :: rest else (a, b) :: (k, c) :: rest)
    else if a = k then (if b = unlistedByte then rest else (a, b) :: rest)
    else (k, c) :: Memory.writeByte rest a b

/-- The `n` bytes at `a` and after, lowest offset first. -/
def Memory.readBytes (m : Memory) : Nat → Nat → List Byte
  | _, 0 => []
  | a, n + 1 => m.readByte a :: m.readBytes (a + 1) n

/-- Stores bytes at `a` and after, lowest offset first. -/
def Memory.writeBytes (m : Memory) : Nat → List Byte → Memory
  | _, [] => m
  | a, b :: bs => Memory.writeBytes (m.writeByte a b) (a + 1) bs

/-- The bounds rule: `addr + n <= MEMSIZE`, the sum in the naturals (20_memory.md R51). -/
def State.admits (s : State) (addr : Word) (n : Nat) : Bool := decide (addr.toNat + n ≤ s.memSize.val)

/-- `MemRead(addr, n)`, zero-extended to 64 bits (20_memory.md R54). The spec has `n` in 1, 2, 4, 8, and so has every
instruction; what any other `n` gives is DESIGN CHOICE, log entry 18. -/
def State.memRead (s : State) (addr : Word) (n : Nat) : Except Fault Word :=
  if s.admits addr n then .ok (leWord (s.mem.readBytes addr.toNat n)) else .error .memoryBounds

/-- `MemWrite(addr, n, v)`: the low `8n` bits of `v`, or nothing (20_memory.md R55). The spec has `n` in 1, 2, 4, 8; what any
other `n` gives is DESIGN CHOICE, log entry 18. -/
def State.memWrite (s : State) (addr : Word) (n : Nat) (v : Word) : Except Fault State :=
  if s.admits addr n then .ok { s with mem := s.mem.writeBytes addr.toNat (leBytes n v.toNat) }
  else .error .memoryBounds

/-- `ConsoleWrite(bytes)` (50_interfaces.md R224). -/
def State.consoleWrite (s : State) (text : List Byte) : State := { s with consoleOut := s.consoleOut ++ text }

/-- `FileWrite(bytes)` (50_interfaces.md R225). -/
def State.fileWrite (s : State) (text : List Byte) : State := { s with fileOut := s.fileOut ++ text }

/-- Taking a fault: the step ends at once with outcome `fault(F)` and nothing is saved, because nothing is changed
(60_exceptions.md R241, R251, R252). There is no handler and no return from one (R253): the host goes on from the state
before the step. -/
def raise (f : Fault) : Host.Outcome State Fault Refusal := .fault f

/-- The outcome of a step whose phases either raised a fault or committed (40_fetch_decode_operands.md R110). -/
def finish : Except Fault State → Host.Outcome State Fault Refusal
  | .ok s => .next s
  | .error f => raise f

end Sys2Proof.Machine
end

