-- ==== Sys2Proof/Machine/Flags.lean ====
section
/-!
DEFINITION. The status-flag register: reading a flag, `SetFlags` and `SetZS` (10_state.md R27 to R33), and the conditions
of the eight jumps (41_signed_jumps.md R140 to R148).
-/

namespace Sys2Proof.Machine

/-- Whether the flag of a mask is 1 in a value of `rsf`. -/
def flagOf (mask flags : Word) : Bool := flags &&& mask != 0

/-- `mask` if the flag is to be 1, else 0. -/
def flagBit (mask : Word) (b : Bool) : Word := if b then mask else 0

/-- `SetFlags(z, c, s, o)` as a function of the old value of `rsf` (10_state.md R31). -/
def setFlags (z c n o : Bool) (flags : Word) : Word :=
  (flags &&& maskSticky) ||| flagBit maskZ z ||| flagBit maskC c ||| flagBit maskS n ||| flagBit maskO o

/-- `SetZS(r, c, o)` applied to the value now in `rsf`, so that a result just written there is what it modifies
(10_state.md R31, R33; decision D11, UNVERIFIED, log entry 7). -/
def State.setZS (s : State) (r : Word) (c o : Bool) : State :=
  s.setReg .rsf (setFlags (r == 0) c r.msb o (s.getReg .rsf))

/-- Zero. -/
def State.flagZ (s : State) : Bool := flagOf maskZ (s.getReg .rsf)
/-- Carry. -/
def State.flagC (s : State) : Bool := flagOf maskC (s.getReg .rsf)
/-- FileEnd. -/
def State.flagFE (s : State) : Bool := flagOf maskFE (s.getReg .rsf)
/-- Sign. -/
def State.flagS (s : State) : Bool := flagOf maskS (s.getReg .rsf)
/-- Overflow. -/
def State.flagO (s : State) : Bool := flagOf maskO (s.getReg .rsf)

/-- `JLT`: S ≠ O (41_signed_jumps.md R141). -/
def condLT (s : State) : Bool := s.flagS != s.flagO
/-- `JLE`: Z = 1 or S ≠ O (R142). -/
def condLE (s : State) : Bool := s.flagZ || (s.flagS != s.flagO)
/-- `JGT`: Z = 0 and S = O (R143). -/
def condGT (s : State) : Bool := !s.flagZ && (s.flagS == s.flagO)
/-- `JGE`: S = O (R144). -/
def condGE (s : State) : Bool := s.flagS == s.flagO
/-- `JSI`: S = 1 (R145). -/
def condSI (s : State) : Bool := s.flagS
/-- `JNS`: S = 0 (R146). -/
def condNS (s : State) : Bool := !s.flagS
/-- `JOV`: O = 1 (R147). -/
def condOV (s : State) : Bool := s.flagO
/-- `JNO`: O = 0 (R148). -/
def condNO (s : State) : Bool := !s.flagO

end Sys2Proof.Machine
end

