-- ==== Sys2Proof/Machine/Operands.lean ====
section
/-!
DEFINITION. The operand resolver: register id and destination checks, the four addressing modes and the jump target
(40_fetch_decode_operands.md R113 to R121, R129), and the narrowing of a source to its working width (00_scope.md R8).
-/

namespace Sys2Proof.Machine

/-- A source operand, by class (30_encoding.md R82). `ι` is how a register is named: the byte of the stream, or, once
checked, a register. -/
inductive Source (ι : Type) where
  | reg (id : ι)
  | lit (v : Word)
  | addr (a : Word)
  | ptr (id : ι)
  deriving DecidableEq, Repr

/-- A jump target, by class (41_signed_jumps.md R140). -/
inductive Target (ι : Type) where
  | addr (a : Word)
  | ptr (id : ι)
  deriving DecidableEq, Repr

/-- Stream bytes of a source operand (30_encoding.md R82). -/
def Source.size {ι : Type} : Source ι → Nat
  | .reg _ => 1
  | .lit _ => 8
  | .addr _ => 8
  | .ptr _ => 1

/-- Stream bytes of a jump target (30_encoding.md R82). -/
def Target.size {ι : Type} : Target ι → Nat
  | .addr _ => 8
  | .ptr _ => 1

/-- The register a byte names; all eight bits are checked (30_encoding.md R85, 40_fetch_decode_operands.md R113). -/
def regOf (id : Byte) : Except Fault Reg :=
  if h : id.toNat < 16 then .ok ⟨id.toNat, h⟩ else .error .invalidRegister

/-- The byte that names a register (30_encoding.md R85). -/
def idByte (r : Reg) : Byte := BitVec.ofNat 8 r.val

/-- The register id check of a source (40_fetch_decode_operands.md R113). -/
def Source.check : Source Byte → Except Fault (Source Reg)
  | .reg id => (regOf id).map .reg
  | .lit v => .ok (.lit v)
  | .addr a => .ok (.addr a)
  | .ptr id => (regOf id).map .ptr

/-- The register id check of a jump target (40_fetch_decode_operands.md R113). -/
def Target.check : Target Byte → Except Fault (Target Reg)
  | .addr a => .ok (.addr a)
  | .ptr id => (regOf id).map .ptr

/-- The destination check (40_fetch_decode_operands.md R114, 10_state.md R23). -/
def checkDest (d : Reg) : Except Fault Unit :=
  if d = .rpo then .error .illegalDestination else .ok ()

/-- The device check of `WFN` and `WFB` (40_fetch_decode_operands.md R115). -/
def checkFile (s : State) : Except Fault Unit :=
  if s.fileOpen then .ok () else .error .fileOperation

/-- The value `sv` of a source, memory forms reading `n = W/8` bytes (40_fetch_decode_operands.md R117 to R119; the width is
decision D19, UNVERIFIED, log entry 8). -/
def Source.value (s : State) (n : Nat) : Source Reg → Except Fault Word
  | .reg r => .ok (s.getReg r)
  | .lit v => .ok v
  | .addr a => s.memRead a n
  | .ptr r => s.memRead (s.getReg r) n

/-- The target of a jump: the offset itself, memory not read (40_fetch_decode_operands.md R121, decision D8, UNVERIFIED, log
entry 8). -/
def Target.offset (s : State) : Target Reg → Word
  | .addr a => a
  | .ptr r => s.getReg r

/-- Phases 4, 5 and 7 for an instruction `OP d, s` (40_fetch_decode_operands.md R110): ids in operand order, destination,
source. -/
def destAndSource (n : Nat) (d : Byte) (src : Source Byte) (s : State) : Except Fault (Reg × Word) := do
  let r ← regOf d
  let o ← src.check
  checkDest r
  let sv ← o.value s n
  return (r, sv)

/-- Phases 4 and 5 for an instruction with one destination and no source. -/
def destOnly (d : Byte) : Except Fault Reg := do
  let r ← regOf d
  checkDest r
  return r

/-- `sext_W(v)`: the low `w` bits, sign-extended to 64 (00_scope.md R8). -/
def sext (w : Nat) (v : Word) : Word := (v.setWidth w).signExtend 64

/-- `signed_W(v[W-1:0])` (00_scope.md R8). -/
def signedLow (w : Nat) (v : Word) : Int := (v.setWidth w).toInt

end Sys2Proof.Machine
end

