-- ==== Sys2Proof/Machine/Division.lean ====
section
/-!
DEFINITION. Signed division (42_signed_divide.md).
-/

namespace Sys2Proof.Machine

/-- Quotient and remainder of two registers read as signed (42_signed_divide.md R160), after the divide-by-zero check
(40_fetch_decode_operands.md R122). -/
def quotRem (a b : Word) : Except Fault (Word × Word) :=
  if b = 0 then .error .divideByZero
  else if a = 0x8000000000000000 ∧ b = 0xFFFFFFFFFFFFFFFF then divMinByMinusOne
  else .ok (BitVec.ofInt 64 (a.toInt.tdiv b.toInt), BitVec.ofInt 64 (a.toInt.tmod b.toInt))

/-- `DIV d, s` (42_signed_divide.md R161). -/
def divide (d : Byte) (src : Source Byte) (s : State) : Except Fault State := do
  let (r, sv) ← destAndSource 8 d src s
  let (q, _) ← quotRem (s.getReg r) sv
  return ((s.setReg r q).setZS q false false).advance (3 + src.size)

/-- Phases 4, 5 and 7 for `DVR d, d2, s` (40_fetch_decode_operands.md R113, R114). -/
def dvrOperands (d d2 : Byte) (src : Source Byte) (s : State) : Except Fault (Reg × Reg × Word) := do
  let r ← regOf d
  let r2 ← regOf d2
  let o ← src.check
  checkDest r
  checkDest r2
  let sv ← o.value s 8
  return (r, r2, sv)

/-- `DVR d, d2, s`: quotient written first, remainder second, flags from the quotient (42_signed_divide.md R162; decisions
D12 and D13, UNVERIFIED, log entry 7). -/
def divideRem (d d2 : Byte) (src : Source Byte) (s : State) : Except Fault State := do
  let (r, r2, sv) ← dvrOperands d d2 src s
  let (q, m) ← quotRem (s.getReg r) sv
  return (((s.setReg r q).setReg r2 m).setZS q false false).advance (4 + src.size)

/-- `REM d, s` (42_signed_divide.md R163). -/
def remainder (d : Byte) (src : Source Byte) (s : State) : Except Fault State := do
  let (r, sv) ← destAndSource 8 d src s
  let (_, m) ← quotRem (s.getReg r) sv
  return ((s.setReg r m).setZS m false false).advance (3 + src.size)

/-- `DIV`, Register divisor (42_signed_divide.md R161). -/
def execDivR (d : Byte) (src : Byte) (s : State) : Host.Outcome State Fault Refusal :=
  finish (divide d (.reg src) s)

/-- `DIV`, Literal divisor (42_signed_divide.md R161). -/
def execDivL (d : Byte) (src : Word) (s : State) : Host.Outcome State Fault Refusal :=
  finish (divide d (.lit src) s)

/-- `DIV`, Address divisor (42_signed_divide.md R161). -/
def execDivA (d : Byte) (src : Word) (s : State) : Host.Outcome State Fault Refusal :=
  finish (divide d (.addr src) s)

/-- `DIV`, Pointer divisor (42_signed_divide.md R161). -/
def execDivP (d : Byte) (src : Byte) (s : State) : Host.Outcome State Fault Refusal :=
  finish (divide d (.ptr src) s)

/-- `DVR`, Register divisor (42_signed_divide.md R162). -/
def execDvrR (d d2 : Byte) (src : Byte) (s : State) : Host.Outcome State Fault Refusal :=
  finish (divideRem d d2 (.reg src) s)

/-- `DVR`, Literal divisor (42_signed_divide.md R162). -/
def execDvrL (d d2 : Byte) (src : Word) (s : State) : Host.Outcome State Fault Refusal :=
  finish (divideRem d d2 (.lit src) s)

/-- `DVR`, Address divisor (42_signed_divide.md R162). -/
def execDvrA (d d2 : Byte) (src : Word) (s : State) : Host.Outcome State Fault Refusal :=
  finish (divideRem d d2 (.addr src) s)

/-- `DVR`, Pointer divisor (42_signed_divide.md R162). -/
def execDvrP (d d2 : Byte) (src : Byte) (s : State) : Host.Outcome State Fault Refusal :=
  finish (divideRem d d2 (.ptr src) s)

/-- `REM`, Register divisor (42_signed_divide.md R163). -/
def execRemR (d : Byte) (src : Byte) (s : State) : Host.Outcome State Fault Refusal :=
  finish (remainder d (.reg src) s)

/-- `REM`, Literal divisor (42_signed_divide.md R163). -/
def execRemL (d : Byte) (src : Word) (s : State) : Host.Outcome State Fault Refusal :=
  finish (remainder d (.lit src) s)

/-- `REM`, Address divisor (42_signed_divide.md R163). -/
def execRemA (d : Byte) (src : Word) (s : State) : Host.Outcome State Fault Refusal :=
  finish (remainder d (.addr src) s)

/-- `REM`, Pointer divisor (42_signed_divide.md R163). -/
def execRemP (d : Byte) (src : Byte) (s : State) : Host.Outcome State Fault Refusal :=
  finish (remainder d (.ptr src) s)

end Sys2Proof.Machine
end

