-- ==== Sys2Proof/Machine/Halt.lean ====
section
/-!
DEFINITION. The halting instruction (47_halt.md).
-/

namespace Sys2Proof.Machine

/-- `HLT`: `pc <- p0 + 1`, outcome `halted` (47_halt.md R210, decision D9; UNVERIFIED, log entry 4). The outcome stands in
`report`, since the host interface has one outcome for a completed step (DESIGN CHOICE, log entry 2). -/
def execHlt (s : State) : Host.Outcome State Fault Refusal :=
  .next (s.commitPc (s.pc + 1) .halted)

end Sys2Proof.Machine
end

