-- ==== Sys2Proof/Machine/Jumps.lean ====
section
/-!
DEFINITION. The eight signed conditional jumps (41_signed_jumps.md).
-/

namespace Sys2Proof.Machine

/-- What the eight jumps share (41_signed_jumps.md R140): the id check whether or not the condition holds, then one write of
the program counter. -/
def jump (cond : State → Bool) (t : Target Byte) (s : State) : Except Fault State := do
  let o ← t.check
  return if cond s then s.commitPc (o.offset s) .next else s.advance (2 + t.size)

/-- `JLT`, address form (41_signed_jumps.md R141). -/
def execJltA (t : Word) (s : State) : Host.Outcome State Fault Refusal :=
  finish (jump condLT (.addr t) s)

/-- `JLT`, pointer form (41_signed_jumps.md R141). -/
def execJltP (t : Byte) (s : State) : Host.Outcome State Fault Refusal :=
  finish (jump condLT (.ptr t) s)

/-- `JLE`, address form (41_signed_jumps.md R142). -/
def execJleA (t : Word) (s : State) : Host.Outcome State Fault Refusal :=
  finish (jump condLE (.addr t) s)

/-- `JLE`, pointer form (41_signed_jumps.md R142). -/
def execJleP (t : Byte) (s : State) : Host.Outcome State Fault Refusal :=
  finish (jump condLE (.ptr t) s)

/-- `JGT`, address form (41_signed_jumps.md R143). -/
def execJgtA (t : Word) (s : State) : Host.Outcome State Fault Refusal :=
  finish (jump condGT (.addr t) s)

/-- `JGT`, pointer form (41_signed_jumps.md R143). -/
def execJgtP (t : Byte) (s : State) : Host.Outcome State Fault Refusal :=
  finish (jump condGT (.ptr t) s)

/-- `JGE`, address form (41_signed_jumps.md R144). -/
def execJgeA (t : Word) (s : State) : Host.Outcome State Fault Refusal :=
  finish (jump condGE (.addr t) s)

/-- `JGE`, pointer form (41_signed_jumps.md R144). -/
def execJgeP (t : Byte) (s : State) : Host.Outcome State Fault Refusal :=
  finish (jump condGE (.ptr t) s)

/-- `JSI`, address form (41_signed_jumps.md R145). -/
def execJsiA (t : Word) (s : State) : Host.Outcome State Fault Refusal :=
  finish (jump condSI (.addr t) s)

/-- `JSI`, pointer form (41_signed_jumps.md R145). -/
def execJsiP (t : Byte) (s : State) : Host.Outcome State Fault Refusal :=
  finish (jump condSI (.ptr t) s)

/-- `JNS`, address form (41_signed_jumps.md R146). -/
def execJnsA (t : Word) (s : State) : Host.Outcome State Fault Refusal :=
  finish (jump condNS (.addr t) s)

/-- `JNS`, pointer form (41_signed_jumps.md R146). -/
def execJnsP (t : Byte) (s : State) : Host.Outcome State Fault Refusal :=
  finish (jump condNS (.ptr t) s)

/-- `JOV`, address form (41_signed_jumps.md R147). -/
def execJovA (t : Word) (s : State) : Host.Outcome State Fault Refusal :=
  finish (jump condOV (.addr t) s)

/-- `JOV`, pointer form (41_signed_jumps.md R147). -/
def execJovP (t : Byte) (s : State) : Host.Outcome State Fault Refusal :=
  finish (jump condOV (.ptr t) s)

/-- `JNO`, address form (41_signed_jumps.md R148). -/
def execJnoA (t : Word) (s : State) : Host.Outcome State Fault Refusal :=
  finish (jump condNO (.addr t) s)

/-- `JNO`, pointer form (41_signed_jumps.md R148). -/
def execJnoP (t : Byte) (s : State) : Host.Outcome State Fault Refusal :=
  finish (jump condNO (.ptr t) s)

end Sys2Proof.Machine
end

