-- ==== Sys2Proof/Machine/Moves.lean ====
section
/-!
DEFINITION. Width-narrowing signed moves (44_signed_moves.md).
-/

namespace Sys2Proof.Machine

/-- `MVx d, s` with working width `w`: no flags, `rsf` being a destination like any other (44_signed_moves.md R180). -/
def move (w : Nat) (d : Byte) (src : Source Byte) (s : State) : Except Fault State := do
  let (r, sv) ← destAndSource (w / 8) d src s
  return (s.setReg r (sext w sv)).advance (3 + src.size)

/-- `MVB`, Register source (44_signed_moves.md R181). -/
def execMvbR (d : Byte) (src : Byte) (s : State) : Host.Outcome State Fault Refusal :=
  finish (move 8 d (.reg src) s)

/-- `MVB`, Literal source (44_signed_moves.md R181). -/
def execMvbL (d : Byte) (src : Word) (s : State) : Host.Outcome State Fault Refusal :=
  finish (move 8 d (.lit src) s)

/-- `MVB`, Address source (44_signed_moves.md R181). -/
def execMvbA (d : Byte) (src : Word) (s : State) : Host.Outcome State Fault Refusal :=
  finish (move 8 d (.addr src) s)

/-- `MVB`, Pointer source (44_signed_moves.md R181). -/
def execMvbP (d : Byte) (src : Byte) (s : State) : Host.Outcome State Fault Refusal :=
  finish (move 8 d (.ptr src) s)

/-- `MVW`, Register source (44_signed_moves.md R182). -/
def execMvwR (d : Byte) (src : Byte) (s : State) : Host.Outcome State Fault Refusal :=
  finish (move 16 d (.reg src) s)

/-- `MVW`, Literal source (44_signed_moves.md R182). -/
def execMvwL (d : Byte) (src : Word) (s : State) : Host.Outcome State Fault Refusal :=
  finish (move 16 d (.lit src) s)

/-- `MVW`, Address source (44_signed_moves.md R182). -/
def execMvwA (d : Byte) (src : Word) (s : State) : Host.Outcome State Fault Refusal :=
  finish (move 16 d (.addr src) s)

/-- `MVW`, Pointer source (44_signed_moves.md R182). -/
def execMvwP (d : Byte) (src : Byte) (s : State) : Host.Outcome State Fault Refusal :=
  finish (move 16 d (.ptr src) s)

/-- `MVD`, Register source (44_signed_moves.md R183). -/
def execMvdR (d : Byte) (src : Byte) (s : State) : Host.Outcome State Fault Refusal :=
  finish (move 32 d (.reg src) s)

/-- `MVD`, Literal source (44_signed_moves.md R183). -/
def execMvdL (d : Byte) (src : Word) (s : State) : Host.Outcome State Fault Refusal :=
  finish (move 32 d (.lit src) s)

/-- `MVD`, Address source (44_signed_moves.md R183). -/
def execMvdA (d : Byte) (src : Word) (s : State) : Host.Outcome State Fault Refusal :=
  finish (move 32 d (.addr src) s)

/-- `MVD`, Pointer source (44_signed_moves.md R183). -/
def execMvdP (d : Byte) (src : Byte) (s : State) : Host.Outcome State Fault Refusal :=
  finish (move 32 d (.ptr src) s)

end Sys2Proof.Machine
end

