-- ==== Sys2Proof/Machine/Shift.lean ====
section
/-!
DEFINITION. Signed right shift (43_signed_shift.md).
-/

namespace Sys2Proof.Machine

/-- The result of `sar(v, n)`: the amount is the full unsigned operand, saturating at 64 (43_signed_shift.md R170; decision
D17, UNVERIFIED, log entry 5). -/
def sar (v n : Word) : Word := v.sshiftRight (min n.toNat 64)

/-- `SHR d, s` (43_signed_shift.md R171; Overflow cleared by decision D16, UNVERIFIED, log entry 5). -/
def shiftRight (d : Byte) (src : Source Byte) (s : State) : Except Fault State := do
  let (r, n) ← destAndSource 8 d src s
  let v := s.getReg r
  return ((s.setReg r (sar v n)).setZS (sar v n) (shrCarry v n) false).advance (3 + src.size)

/-- `SHR`, Register amount (43_signed_shift.md R171). -/
def execShrR (d : Byte) (src : Byte) (s : State) : Host.Outcome State Fault Refusal :=
  finish (shiftRight d (.reg src) s)

/-- `SHR`, Literal amount (43_signed_shift.md R171). -/
def execShrL (d : Byte) (src : Word) (s : State) : Host.Outcome State Fault Refusal :=
  finish (shiftRight d (.lit src) s)

/-- `SHR`, Address amount (43_signed_shift.md R171). -/
def execShrA (d : Byte) (src : Word) (s : State) : Host.Outcome State Fault Refusal :=
  finish (shiftRight d (.addr src) s)

/-- `SHR`, Pointer amount (43_signed_shift.md R171). -/
def execShrP (d : Byte) (src : Byte) (s : State) : Host.Outcome State Fault Refusal :=
  finish (shiftRight d (.ptr src) s)

end Sys2Proof.Machine
end

