-- ==== Sys2Proof/Machine/Unary.lean ====
section
/-!
DEFINITION. Sign extension in place and negation (45_sign_extend_negate.md).
-/

namespace Sys2Proof.Machine

/-- `wrap64(0 - v)` (45_sign_extend_negate.md R194). -/
def negate (v : Word) : Word := 0 - v

/-- `EXx d` and `NEG d`: the register replaced by a function of itself, Zero and Sign from the result, Carry and Overflow
cleared (45_sign_extend_negate.md R190, R194; for `NEG` by decision D18, UNVERIFIED, log entry 7). -/
def unary (f : Word → Word) (d : Byte) (s : State) : Except Fault State := do
  let r ← destOnly d
  let v := f (s.getReg r)
  return ((s.setReg r v).setZS v false false).advance 3

/-- `EXB` (45_sign_extend_negate.md R191). -/
def execExb (d : Byte) (s : State) : Host.Outcome State Fault Refusal :=
  finish (unary (sext 8) d s)

/-- `EXW` (45_sign_extend_negate.md R192). -/
def execExw (d : Byte) (s : State) : Host.Outcome State Fault Refusal :=
  finish (unary (sext 16) d s)

/-- `EXD` (45_sign_extend_negate.md R193). -/
def execExd (d : Byte) (s : State) : Host.Outcome State Fault Refusal :=
  finish (unary (sext 32) d s)

/-- `NEG` (45_sign_extend_negate.md R194). -/
def execNeg (d : Byte) (s : State) : Host.Outcome State Fault Refusal :=
  finish (unary negate d s)

end Sys2Proof.Machine
end

