-- ==== Sys2Proof/Machine/Writes.lean ====
section
/-!
DEFINITION. Signed decimal writes to console and file (46_signed_write.md).
-/

namespace Sys2Proof.Machine

/-- The ASCII byte of the last decimal digit of `n`. -/
def digitByte (n : Nat) : Byte := BitVec.ofNat 8 (0x30 + n % 10)

/-- The decimal digits of `n`, most significant first, no leading zero; `fuel` bounds how many follow the first. -/
def decDigits : Nat → Nat → List Byte
  | 0, n => [digitByte n]
  | fuel + 1, n => if n < 10 then [digitByte n] else decDigits fuel (n / 10) ++ [digitByte n]

/-- `DecSigned(z)` for `-2^63 <= z < 2^63`, whose magnitude has at most 19 digits (46_signed_write.md R200; decision D22,
UNVERIFIED, log entry 10). -/
def decSigned (z : Int) : List Byte :=
  if z < 0 then 0x2D :: decDigits 20 z.natAbs else decDigits 20 z.natAbs

/-- `WCN` and `WCB` (46_signed_write.md R201). -/
def writeConsole (w : Nat) (src : Source Byte) (s : State) : Except Fault State := do
  let o ← src.check
  let sv ← o.value s (w / 8)
  return (s.consoleWrite (decSigned (signedLow w sv))).advance (2 + src.size)

/-- `WFN` and `WFB`: the device check comes before the source is read (46_signed_write.md R201; order by decision D20,
UNVERIFIED, log entry 9). -/
def writeFile (w : Nat) (src : Source Byte) (s : State) : Except Fault State := do
  let o ← src.check
  checkFile s
  let sv ← o.value s (w / 8)
  return (s.fileWrite (decSigned (signedLow w sv))).advance (2 + src.size)

/-- `WCN`, Register source (46_signed_write.md R203). -/
def execWcnR (src : Byte) (s : State) : Host.Outcome State Fault Refusal :=
  finish (writeConsole 64 (.reg src) s)

/-- `WCN`, Literal source (46_signed_write.md R203). -/
def execWcnL (src : Word) (s : State) : Host.Outcome State Fault Refusal :=
  finish (writeConsole 64 (.lit src) s)

/-- `WCN`, Address source (46_signed_write.md R203). -/
def execWcnA (src : Word) (s : State) : Host.Outcome State Fault Refusal :=
  finish (writeConsole 64 (.addr src) s)

/-- `WCN`, Pointer source (46_signed_write.md R203). -/
def execWcnP (src : Byte) (s : State) : Host.Outcome State Fault Refusal :=
  finish (writeConsole 64 (.ptr src) s)

/-- `WCB`, Register source (46_signed_write.md R204). -/
def execWcbR (src : Byte) (s : State) : Host.Outcome State Fault Refusal :=
  finish (writeConsole 8 (.reg src) s)

/-- `WCB`, Literal source (46_signed_write.md R204). -/
def execWcbL (src : Word) (s : State) : Host.Outcome State Fault Refusal :=
  finish (writeConsole 8 (.lit src) s)

/-- `WCB`, Address source (46_signed_write.md R204). -/
def execWcbA (src : Word) (s : State) : Host.Outcome State Fault Refusal :=
  finish (writeConsole 8 (.addr src) s)

/-- `WCB`, Pointer source (46_signed_write.md R204). -/
def execWcbP (src : Byte) (s : State) : Host.Outcome State Fault Refusal :=
  finish (writeConsole 8 (.ptr src) s)

/-- `WFN`, Register source (46_signed_write.md R205). -/
def execWfnR (src : Byte) (s : State) : Host.Outcome State Fault Refusal :=
  finish (writeFile 64 (.reg src) s)

/-- `WFN`, Literal source (46_signed_write.md R205). -/
def execWfnL (src : Word) (s : State) : Host.Outcome State Fault Refusal :=
  finish (writeFile 64 (.lit src) s)

/-- `WFN`, Address source (46_signed_write.md R205). -/
def execWfnA (src : Word) (s : State) : Host.Outcome State Fault Refusal :=
  finish (writeFile 64 (.addr src) s)

/-- `WFN`, Pointer source (46_signed_write.md R205). -/
def execWfnP (src : Byte) (s : State) : Host.Outcome State Fault Refusal :=
  finish (writeFile 64 (.ptr src) s)

/-- `WFB`, Register source (46_signed_write.md R206). -/
def execWfbR (src : Byte) (s : State) : Host.Outcome State Fault Refusal :=
  finish (writeFile 8 (.reg src) s)

/-- `WFB`, Literal source (46_signed_write.md R206). -/
def execWfbL (src : Word) (s : State) : Host.Outcome State Fault Refusal :=
  finish (writeFile 8 (.lit src) s)

/-- `WFB`, Address source (46_signed_write.md R206). -/
def execWfbA (src : Word) (s : State) : Host.Outcome State Fault Refusal :=
  finish (writeFile 8 (.addr src) s)

/-- `WFB`, Pointer source (46_signed_write.md R206). -/
def execWfbP (src : Byte) (s : State) : Host.Outcome State Fault Refusal :=
  finish (writeFile 8 (.ptr src) s)

end Sys2Proof.Machine
end

