-- ==== Sys2Proof/Machine/Dispatch.lean ====
section
/-! DEFINITION. One arm per instruction: its meaning. -/

namespace Sys2Proof.Machine

def exec (i : Instr) (s : State) : Host.Outcome State Fault Refusal :=
  match i with
  | .jltA t => Sys2Proof.Machine.execJltA t s
  | .jltP t => Sys2Proof.Machine.execJltP t s
  | .jleA t => Sys2Proof.Machine.execJleA t s
  | .jleP t => Sys2Proof.Machine.execJleP t s
  | .jgtA t => Sys2Proof.Machine.execJgtA t s
  | .jgtP t => Sys2Proof.Machine.execJgtP t s
  | .jgeA t => Sys2Proof.Machine.execJgeA t s
  | .jgeP t => Sys2Proof.Machine.execJgeP t s
  | .jsiA t => Sys2Proof.Machine.execJsiA t s
  | .jsiP t => Sys2Proof.Machine.execJsiP t s
  | .jnsA t => Sys2Proof.Machine.execJnsA t s
  | .jnsP t => Sys2Proof.Machine.execJnsP t s
  | .jovA t => Sys2Proof.Machine.execJovA t s
  | .jovP t => Sys2Proof.Machine.execJovP t s
  | .jnoA t => Sys2Proof.Machine.execJnoA t s
  | .jnoP t => Sys2Proof.Machine.execJnoP t s
  | .divR d src => Sys2Proof.Machine.execDivR d src s
  | .divL d src => Sys2Proof.Machine.execDivL d src s
  | .divA d src => Sys2Proof.Machine.execDivA d src s
  | .divP d src => Sys2Proof.Machine.execDivP d src s
  | .dvrR d d2 src => Sys2Proof.Machine.execDvrR d d2 src s
  | .dvrL d d2 src => Sys2Proof.Machine.execDvrL d d2 src s
  | .dvrA d d2 src => Sys2Proof.Machine.execDvrA d d2 src s
  | .dvrP d d2 src => Sys2Proof.Machine.execDvrP d d2 src s
  | .remR d src => Sys2Proof.Machine.execRemR d src s
  | .remL d src => Sys2Proof.Machine.execRemL d src s
  | .remA d src => Sys2Proof.Machine.execRemA d src s
  | .remP d src => Sys2Proof.Machine.execRemP d src s
  | .shrR d src => Sys2Proof.Machine.execShrR d src s
  | .shrL d src => Sys2Proof.Machine.execShrL d src s
  | .shrA d src => Sys2Proof.Machine.execShrA d src s
  | .shrP d src => Sys2Proof.Machine.execShrP d src s
  | .mvbR d src => Sys2Proof.Machine.execMvbR d src s
  | .mvbL d src => Sys2Proof.Machine.execMvbL d src s
  | .mvbA d src => Sys2Proof.Machine.execMvbA d src s
  | .mvbP d src => Sys2Proof.Machine.execMvbP d src s
  | .mvwR d src => Sys2Proof.Machine.execMvwR d src s
  | .mvwL d src => Sys2Proof.Machine.execMvwL d src s
  | .mvwA d src => Sys2Proof.Machine.execMvwA d src s
  | .mvwP d src => Sys2Proof.Machine.execMvwP d src s
  | .mvdR d src => Sys2Proof.Machine.execMvdR d src s
  | .mvdL d src => Sys2Proof.Machine.execMvdL d src s
  | .mvdA d src => Sys2Proof.Machine.execMvdA d src s
  | .mvdP d src => Sys2Proof.Machine.execMvdP d src s
  | .wcnR src => Sys2Proof.Machine.execWcnR src s
  | .wcnL src => Sys2Proof.Machine.execWcnL src s
  | .wcnA src => Sys2Proof.Machine.execWcnA src s
  | .wcnP src => Sys2Proof.Machine.execWcnP src s
  | .wcbR src => Sys2Proof.Machine.execWcbR src s
  | .wcbL src => Sys2Proof.Machine.execWcbL src s
  | .wcbA src => Sys2Proof.Machine.execWcbA src s
  | .wcbP src => Sys2Proof.Machine.execWcbP src s
  | .wfnR src => Sys2Proof.Machine.execWfnR src s
  | .wfnL src => Sys2Proof.Machine.execWfnL src s
  | .wfnA src => Sys2Proof.Machine.execWfnA src s
  | .wfnP src => Sys2Proof.Machine.execWfnP src s
  | .wfbR src => Sys2Proof.Machine.execWfbR src s
  | .wfbL src => Sys2Proof.Machine.execWfbL src s
  | .wfbA src => Sys2Proof.Machine.execWfbA src s
  | .wfbP src => Sys2Proof.Machine.execWfbP src s
  | .exb d => Sys2Proof.Machine.execExb d s
  | .exw d => Sys2Proof.Machine.execExw d s
  | .exd d => Sys2Proof.Machine.execExd d s
  | .neg d => Sys2Proof.Machine.execNeg d s
  | .hlt => Sys2Proof.Machine.execHlt s

end Sys2Proof.Machine
end

