-- ==== Sys2Proof/Machine/Fetch.lean ====
section
/-!
DEFINITION. The fetch unit (40_fetch_decode_operands.md R111, R112): the bytes at the program counter, decoded.
-/

namespace Sys2Proof.Machine

/-- The bytes a fetch at the program counter can reach: from `p0` to the end of memory, at most the longest instruction's
(30_encoding.md R80). Decoding them ends in `truncated` exactly where a fetch byte by byte would go beyond `MEMSIZE`
(DEDUCED, safe, log entry 16). -/
def State.fetchBytes (s : State) : List Byte :=
  s.mem.readBytes s.pc.toNat (min maxLength (s.memSize.val - s.pc.toNat))

/-- The fault of a failed fetch (60_exceptions.md R244, R246). -/
def rejectFault : Reject → Fault
  | .truncated => .memoryBounds
  | .invalidOpcode => .invalidOpcode

/-- Phases 1 to 3 of a step (40_fetch_decode_operands.md R110). -/
def State.fetch (s : State) : Except Fault Instr :=
  match decode s.fetchBytes with
  | .ok (i, _) => .ok i
  | .error r => .error (rejectFault r)

/-- The state in which an instruction of the longest length fits at the program counter: `s` itself where it does; else memory
is made as large as the spec allows, and the program counter goes to 0 if it still does not (log entry 14). -/
def State.withFetchRoom (s : State) : State :=
  if s.admits s.pc maxLength then s
  else if s.pc.toNat + maxLength < 2 ^ 64 then { s with memSize := Config.resetMemSize }
  else { s.setReg .rpo 0 with memSize := Config.resetMemSize }

/-- `s` with the bytes stored from the program counter on. -/
def State.placeAtPc (s : State) (bytes : List Byte) : State :=
  { s with mem := s.mem.writeBytes s.pc.toNat bytes }

end Sys2Proof.Machine
end

