-- ==== Sys2Proof/Machine/Step.lean ====
section
/-!
DEFINITION. One step of the core (40_fetch_decode_operands.md R110, 50_interfaces.md R221): fetch, decode, execute. The
program counter is written by the instruction's own commit, so nothing is added around `exec`.
-/

namespace Sys2Proof.Machine

/-- One step: a total function of the state (00_scope.md R10). -/
def step (s : State) : Host.Outcome State Fault Refusal :=
  match s.fetch with
  | .ok i => exec i s
  | .error f => raise f

/-- `s` with the instruction of bits `w` (bits from `nbits` up zero, byte 0 of the stream in bits 7:0) stored where `step`
fetches next, that is, at the program counter. A program is otherwise loaded by the host (log entry 13). -/
def State.withFetchWord (s : State) (nbits w : Nat) : State :=
  s.withFetchRoom.placeAtPc (leBytes maxLength (w % 2 ^ nbits))

end Sys2Proof.Machine
end

