-- ==== Sys2Proof/Machine/External.lean ====
section
/-!
DEFINITION. What the host may do between steps (50_interfaces.md R220 to R230, 70_reset_and_hazards.md R270 to R273), and
run-to-completion, which is repeated step.
-/

namespace Sys2Proof.Machine

/-- `Load(bytes)` at offset 0, all or nothing (70_reset_and_hazards.md R273). -/
def State.load (s : State) (bytes : List Byte) : Except Fault State :=
  if bytes.length ≤ s.memSize.val then .ok { s with mem := s.mem.writeBytes 0 bytes } else .error .memoryBounds

/-- The host reads a register (50_interfaces.md R229). -/
def State.hostReadReg (s : State) (r : Reg) : Word := s.getReg r

/-- The host writes a register, `rpo` and every bit of `rsf` included (50_interfaces.md R229). -/
def State.hostWriteReg (s : State) (r : Reg) (v : Word) : State := s.setReg r v

/-- The host reads memory, under the bounds rule (50_interfaces.md R229). An `n` outside 1, 2, 4, 8 has no meaning in the spec
(20_memory.md R50): the model admits it under the same rule (DESIGN CHOICE, unsafe, log entry 18). -/
def State.hostReadMem (s : State) (addr : Word) (n : Nat) : Except Fault Word := s.memRead addr n

/-- The host writes memory, under the bounds rule (50_interfaces.md R229). An `n` outside 1, 2, 4, 8 has no meaning in the spec
(20_memory.md R50): the model admits it under the same rule (DESIGN CHOICE, unsafe, log entry 18). -/
def State.hostWriteMem (s : State) (addr : Word) (n : Nat) (v : Word) : Except Fault State := s.memWrite addr n v

/-- `SetFileSink(sink or none)`: an open sink brings its content with it (50_interfaces.md R227). With `none` the bytes of the
sink closed stay in `fileOut` (DESIGN CHOICE, log entry 12). -/
def State.setFileSink (s : State) : Option (List Byte) → State
  | some content => { s with fileOpen := true, fileOut := content }
  | none => { s with fileOpen := false }

/-- The host supplies a console sink with its content (50_interfaces.md R224, R230). -/
def State.setConsoleSink (s : State) (content : List Byte) : State := { s with consoleOut := content }

/-- How a run ended (50_interfaces.md R222). -/
inductive RunEnd where
  /-- The step budget was used up: the run is suspended (47_halt.md R211 (c)). -/
  | stopped
  /-- A step halted (47_halt.md R211 (a)). -/
  | halted
  /-- A step faulted (47_halt.md R211 (b)). -/
  | fault (f : Fault)
  /-- A step was refused: never, since every instruction has a meaning. -/
  | refused (r : Refusal)
  deriving DecidableEq, Repr

/-- `Run(budget)` and its final state, which for a fault is the state before the faulting step (50_interfaces.md R222,
47_halt.md R211). -/
def run : Nat → State → RunEnd × State
  | 0, s => (.stopped, s)
  | budget + 1, s =>
    match step s with
    | .next t => if t.report = .halted then (.halted, t) else run budget t
    | .fault f => (.fault f, s)
    | .refused r => (.refused r, s)

/-- `Run(unbounded)` from `s` returns this end and this final state: some number of steps suffices (50_interfaces.md R222).
It has none when the run goes on for ever (47_halt.md R211). -/
def runEnds (s : State) (e : RunEnd) (t : State) : Prop := e ≠ .stopped ∧ ∃ budget, run budget s = (e, t)

end Sys2Proof.Machine
end

