-- ==== Sys2Proof/Safety.lean ====
section
/-!
DEFINITION. The terms the statements use: instructions by mnemonic and operand class, what each class of instruction names
and may raise, frames, and the invariants of a run.
-/

namespace Sys2Proof.Machine

/-! ### Instructions by mnemonic -/

/-- The eight jump conditions (41_signed_jumps.md R141 to R148). -/
inductive Cond where
  | jlt | jle | jgt | jge | jsi | jns | jov | jno
  deriving DecidableEq, Repr

/-- The mnemonics `OP d, s` (30_encoding.md R83). -/
inductive DestOp where
  | div | rem | shr | mvb | mvw | mvd
  deriving DecidableEq, Repr

/-- The mnemonics `OP d` (30_encoding.md R83). -/
inductive UnaryOp where
  | exb | exw | exd | neg
  deriving DecidableEq, Repr

/-- The mnemonics `OP s` (30_encoding.md R83). -/
inductive WriteOp where
  | wcn | wcb | wfn | wfb
  deriving DecidableEq, Repr

/-- An instruction as mnemonic and operands, the addressing variant inside the operand (30_encoding.md R83, R88). -/
inductive Shape where
  | jump (c : Cond) (t : Target Byte)
  | dest (op : DestOp) (d : Byte) (src : Source Byte)
  | dvr (d d2 : Byte) (src : Source Byte)
  | unary (op : UnaryOp) (d : Byte)
  | write (op : WriteOp) (src : Source Byte)
  | hlt
  deriving DecidableEq, Repr

/-- The constructor that stands for a mnemonic with these operands (30_encoding.md R88). -/
def Shape.instr : Shape → Instr
  | .jump .jlt (.addr t) => .jltA t
  | .jump .jlt (.ptr t) => .jltP t
  | .jump .jle (.addr t) => .jleA t
  | .jump .jle (.ptr t) => .jleP t
  | .jump .jgt (.addr t) => .jgtA t
  | .jump .jgt (.ptr t) => .jgtP t
  | .jump .jge (.addr t) => .jgeA t
  | .jump .jge (.ptr t) => .jgeP t
  | .jump .jsi (.addr t) => .jsiA t
  | .jump .jsi (.ptr t) => .jsiP t
  | .jump .jns (.addr t) => .jnsA t
  | .jump .jns (.ptr t) => .jnsP t
  | .jump .jov (.addr t) => .jovA t
  | .jump .jov (.ptr t) => .jovP t
  | .jump .jno (.addr t) => .jnoA t
  | .jump .jno (.ptr t) => .jnoP t
  | .dest .div d (.reg src) => .divR d src
  | .dest .div d (.lit src) => .divL d src
  | .dest .div d (.addr src) => .divA d src
  | .dest .div d (.ptr src) => .divP d src
  | .dvr d d2 (.reg src) => .dvrR d d2 src
  | .dvr d d2 (.lit src) => .dvrL d d2 src
  | .dvr d d2 (.addr src) => .dvrA d d2 src
  | .dvr d d2 (.ptr src) => .dvrP d d2 src
  | .dest .rem d (.reg src) => .remR d src
  | .dest .rem d (.lit src) => .remL d src
  | .dest .rem d (.addr src) => .remA d src
  | .dest .rem d (.ptr src) => .remP d src
  | .dest .shr d (.reg src) => .shrR d src
  | .dest .shr d (.lit src) => .shrL d src
  | .dest .shr d (.addr src) => .shrA d src
  | .dest .shr d (.ptr src) => .shrP d src
  | .dest .mvb d (.reg src) => .mvbR d src
  | .dest .mvb d (.lit src) => .mvbL d src
  | .dest .mvb d (.addr src) => .mvbA d src
  | .dest .mvb d (.ptr src) => .mvbP d src
  | .dest .mvw d (.reg src) => .mvwR d src
  | .dest .mvw d (.lit src) => .mvwL d src
  | .dest .mvw d (.addr src) => .mvwA d src
  | .dest .mvw d (.ptr src) => .mvwP d src
  | .dest .mvd d (.reg src) => .mvdR d src
  | .dest .mvd d (.lit src) => .mvdL d src
  | .dest .mvd d (.addr src) => .mvdA d src
  | .dest .mvd d (.ptr src) => .mvdP d src
  | .write .wcn (.reg src) => .wcnR src
  | .write .wcn (.lit src) => .wcnL src
  | .write .wcn (.addr src) => .wcnA src
  | .write .wcn (.ptr src) => .wcnP src
  | .write .wcb (.reg src) => .wcbR src
  | .write .wcb (.lit src) => .wcbL src
  | .write .wcb (.addr src) => .wcbA src
  | .write .wcb (.ptr src) => .wcbP src
  | .write .wfn (.reg src) => .wfnR src
  | .write .wfn (.lit src) => .wfnL src
  | .write .wfn (.addr src) => .wfnA src
  | .write .wfn (.ptr src) => .wfnP src
  | .write .wfb (.reg src) => .wfbR src
  | .write .wfb (.lit src) => .wfbL src
  | .write .wfb (.addr src) => .wfbA src
  | .write .wfb (.ptr src) => .wfbP src
  | .unary .exb d => .exb d
  | .unary .exw d => .exw d
  | .unary .exd d => .exd d
  | .unary .neg d => .neg d
  | .hlt => .hlt

/-- Mnemonic and operands of an instruction. -/
def shapeOf : Instr → Shape
  | .jltA t => .jump .jlt (.addr t)
  | .jltP t => .jump .jlt (.ptr t)
  | .jleA t => .jump .jle (.addr t)
  | .jleP t => .jump .jle (.ptr t)
  | .jgtA t => .jump .jgt (.addr t)
  | .jgtP t => .jump .jgt (.ptr t)
  | .jgeA t => .jump .jge (.addr t)
  | .jgeP t => .jump .jge (.ptr t)
  | .jsiA t => .jump .jsi (.addr t)
  | .jsiP t => .jump .jsi (.ptr t)
  | .jnsA t => .jump .jns (.addr t)
  | .jnsP t => .jump .jns (.ptr t)
  | .jovA t => .jump .jov (.addr t)
  | .jovP t => .jump .jov (.ptr t)
  | .jnoA t => .jump .jno (.addr t)
  | .jnoP t => .jump .jno (.ptr t)
  | .divR d src => .dest .div d (.reg src)
  | .divL d src => .dest .div d (.lit src)
  | .divA d src => .dest .div d (.addr src)
  | .divP d src => .dest .div d (.ptr src)
  | .dvrR d d2 src => .dvr d d2 (.reg src)
  | .dvrL d d2 src => .dvr d d2 (.lit src)
  | .dvrA d d2 src => .dvr d d2 (.addr src)
  | .dvrP d d2 src => .dvr d d2 (.ptr src)
  | .remR d src => .dest .rem d (.reg src)
  | .remL d src => .dest .rem d (.lit src)
  | .remA d src => .dest .rem d (.addr src)
  | .remP d src => .dest .rem d (.ptr src)
  | .shrR d src => .dest .shr d (.reg src)
  | .shrL d src => .dest .shr d (.lit src)
  | .shrA d src => .dest .shr d (.addr src)
  | .shrP d src => .dest .shr d (.ptr src)
  | .mvbR d src => .dest .mvb d (.reg src)
  | .mvbL d src => .dest .mvb d (.lit src)
  | .mvbA d src => .dest .mvb d (.addr src)
  | .mvbP d src => .dest .mvb d (.ptr src)
  | .mvwR d src => .dest .mvw d (.reg src)
  | .mvwL d src => .dest .mvw d (.lit src)
  | .mvwA d src => .dest .mvw d (.addr src)
  | .mvwP d src => .dest .mvw d (.ptr src)
  | .mvdR d src => .dest .mvd d (.reg src)
  | .mvdL d src => .dest .mvd d (.lit src)
  | .mvdA d src => .dest .mvd d (.addr src)
  | .mvdP d src => .dest .mvd d (.ptr src)
  | .wcnR src => .write .wcn (.reg src)
  | .wcnL src => .write .wcn (.lit src)
  | .wcnA src => .write .wcn (.addr src)
  | .wcnP src => .write .wcn (.ptr src)
  | .wcbR src => .write .wcb (.reg src)
  | .wcbL src => .write .wcb (.lit src)
  | .wcbA src => .write .wcb (.addr src)
  | .wcbP src => .write .wcb (.ptr src)
  | .wfnR src => .write .wfn (.reg src)
  | .wfnL src => .write .wfn (.lit src)
  | .wfnA src => .write .wfn (.addr src)
  | .wfnP src => .write .wfn (.ptr src)
  | .wfbR src => .write .wfb (.reg src)
  | .wfbL src => .write .wfb (.lit src)
  | .wfbA src => .write .wfb (.addr src)
  | .wfbP src => .write .wfb (.ptr src)
  | .exb d => .unary .exb d
  | .exw d => .unary .exw d
  | .exd d => .unary .exd d
  | .neg d => .unary .neg d
  | .hlt => .hlt

/-- A source naming registers, as bytes of the stream. -/
def Source.raw : Source Reg → Source Byte
  | .reg r => .reg (idByte r)
  | .lit v => .lit v
  | .addr a => .addr a
  | .ptr r => .ptr (idByte r)

/-- A target naming a register, as bytes of the stream. -/
def Target.raw : Target Reg → Target Byte
  | .addr a => .addr a
  | .ptr r => .ptr (idByte r)

/-! ### What an instruction names, needs and may raise -/

/-- The destination operands, in operand order (40_fetch_decode_operands.md R114). -/
def destIds (i : Instr) : List Byte :=
  match shapeOf i with
  | .dest _ d _ => [d]
  | .dvr d d2 _ => [d, d2]
  | .unary _ d => [d]
  | .jump _ _ | .write _ _ | .hlt => []

/-- Σ size of the operands of an instruction (30_encoding.md R82, R84). -/
def operandBytes (i : Instr) : Nat :=
  match shapeOf i with
  | .jump _ t => t.size
  | .dest _ _ src => 1 + src.size
  | .dvr _ _ src => 1 + 1 + src.size
  | .unary _ _ => 1
  | .write _ src => src.size
  | .hlt => 0

/-- Bytes a memory source is read as, `W/8` (20_memory.md R57, 40_fetch_decode_operands.md R116). -/
def DestOp.bytes : DestOp → Nat
  | .div | .rem | .shr => 8
  | .mvd => 4
  | .mvw => 2
  | .mvb => 1

/-- Bytes a memory source is read as, `W/8` (20_memory.md R57, 40_fetch_decode_operands.md R116). -/
def WriteOp.bytes : WriteOp → Nat
  | .wcn | .wfn => 8
  | .wcb | .wfb => 1

/-- Whether the instruction writes to the file sink (46_signed_write.md R201). -/
def WriteOp.toFile : WriteOp → Bool
  | .wfn | .wfb => true
  | .wcn | .wcb => false

/-- The source operand, if there is one, and the bytes a memory form of it reads. -/
def sourceOf (i : Instr) : Option (Source Byte × Nat) :=
  match shapeOf i with
  | .dest op _ src => some (src, op.bytes)
  | .dvr _ _ src => some (src, 8)
  | .write op src => some (src, op.bytes)
  | .jump _ _ | .unary _ _ | .hlt => none

/-- `DIV DVR REM`: the instructions with a divisor (42_signed_divide.md). -/
def isDivision (i : Instr) : Bool :=
  match shapeOf i with
  | .dest .div _ _ | .dest .rem _ _ | .dvr _ _ _ => true
  | _ => false

/-- `WFN WFB`: the instructions that need an open file (40_fetch_decode_operands.md R115). -/
def isFileWrite (i : Instr) : Bool :=
  match shapeOf i with
  | .write op _ => op.toFile
  | _ => false

/-- `WCN WCB`. -/
def isConsoleWrite (i : Instr) : Bool :=
  match shapeOf i with
  | .write op _ => !op.toFile
  | _ => false

/-- The flag-setting class: `DIV DVR REM SHR EXB EXW EXD NEG` (10_state.md R30). -/
def isFlagSetting (i : Instr) : Bool :=
  match shapeOf i with
  | .dest .div _ _ | .dest .rem _ _ | .dest .shr _ _ | .dvr _ _ _ | .unary _ _ => true
  | _ => false

/-- The condition of a jump as a function of Sign, Overflow and Zero (41_signed_jumps.md R140). -/
def Cond.holds (c : Cond) (n o z : Bool) : Bool :=
  match c with
  | .jlt => n != o
  | .jle => z || (n != o)
  | .jgt => !z && (n == o)
  | .jge => n == o
  | .jsi => n
  | .jns => !n
  | .jov => o
  | .jno => !o

/-- The target a jump takes in `s`: `none` if it is no jump or its condition does not hold (41_signed_jumps.md R140). -/
def takenTarget (i : Instr) (s : State) : Option Word :=
  match shapeOf i with
  | .jump c t =>
    if c.holds s.flagS s.flagO s.flagZ then
      match t.check with
      | .ok o => some (o.offset s)
      | .error _ => none
    else none
  | _ => none

/-- The offset a memory source reads from; `none` for a Register or Literal source (40_fetch_decode_operands.md R118). -/
def Source.effectiveAddress (s : State) : Source Reg → Option Word
  | .reg _ => none
  | .lit _ => none
  | .addr a => some a
  | .ptr r => some (s.getReg r)

/-- Whether the source of an instruction, if it has one, reads memory beyond `MEMSIZE` in `s`
(40_fetch_decode_operands.md R118, 60_exceptions.md R244). -/
def sourceOutOfBounds (i : Instr) (s : State) : Prop :=
  ∃ src n o a, sourceOf i = some (src, n) ∧ src.check = .ok o ∧ o.effectiveAddress s = some a ∧
    s.memSize.val < a.toNat + n

/-- Whether the divisor of `DIV`, `DVR` or `REM` is zero in `s` (60_exceptions.md R243). -/
def divisorIsZero (i : Instr) (s : State) : Prop :=
  isDivision i = true ∧ ∃ src n o, sourceOf i = some (src, n) ∧ src.check = .ok o ∧ o.value s n = .ok 0

/-- The faults the execution of an instruction may raise, by 60_exceptions.md R249 less the columns of the fetch. -/
def mayRaise (i : Instr) : List Fault :=
  (if i.regIds = [] then [] else [.invalidRegister]) ++
  (if destIds i = [] then [] else [.illegalDestination]) ++
  (if isFileWrite i then [.fileOperation] else []) ++
  (match sourceOf i with
    | some (.addr _, _) | some (.ptr _, _) => [.memoryBounds]
    | _ => []) ++
  (if isDivision i then [.divideByZero] else [])

/-! ### Frames -/

/-- Every register but those listed reads as before. -/
def KeepsRegsBut (written : List Reg) (s t : State) : Prop := ∀ r, r ∉ written → t.getReg r = s.getReg r

/-- Every byte of memory, and its size, are as before. -/
def KeepsMemory (s t : State) : Prop :=
  (∀ a, t.mem.readByte a = s.mem.readByte a) ∧ t.memSize = s.memSize

/-- Both sinks and the file-open input are as before. -/
def KeepsSinks (s t : State) : Prop :=
  t.consoleOut = s.consoleOut ∧ t.fileOut = s.fileOut ∧ t.fileOpen = s.fileOpen

/-- A completed step that changed only the registers listed: memory, sinks and inputs are as before and the outcome is
`next`. -/
def ChangesOnlyRegs (written : List Reg) (s t : State) : Prop :=
  KeepsRegsBut written s t ∧ KeepsMemory s t ∧ KeepsSinks s t ∧ t.report = .next

/-- The four arithmetic flags of `t`, and the sticky bits of its `rsf`, which are those of `base` (10_state.md R31, R33). -/
def StatusIs (base : Word) (z c n o : Bool) (t : State) : Prop :=
  t.flagZ = z ∧ t.flagC = c ∧ t.flagS = n ∧ t.flagO = o ∧ t.getReg .rsf &&& maskSticky = base &&& maskSticky

/-- A jump completes with `pc <- target` if it is taken and `pc <- next` if not, and changes nothing else
(41_signed_jumps.md R140). -/
def JumpsIf (i : Instr) (s : State) (taken : Bool) (target next : Word) : Prop :=
  ∃ t, exec i s = .next t ∧ t.pc = (if taken then target else next) ∧ ChangesOnlyRegs [.rpo] s t

/-- A flag-setting instruction of `len` bytes completes with result `v` in `d`, the flags of `v`, the carry given and
Overflow clear, the sticky bits of `rsf` as they were, and changes nothing else (10_state.md R30, R31). -/
def SetsRegAndFlags (i : Instr) (s : State) (d : Reg) (v : Word) (carry : Bool) (len : Nat) : Prop :=
  ∃ t, exec i s = .next t ∧ t.getReg d = v ∧ StatusIs (s.getReg .rsf) (v == 0) carry v.msb false t ∧
    t.pc = s.pc + BitVec.ofNat 64 len ∧ ChangesOnlyRegs [.rpo, .rsf, d] s t

/-- A flag-setting instruction of `len` bytes whose destination is `rsf` completes with the result `v` in its sticky bits and
the flags of `flagged` in the others, and changes nothing else (10_state.md R33). -/
def SetsStatusRegister (i : Instr) (s : State) (v flagged : Word) (carry : Bool) (len : Nat) : Prop :=
  ∃ t, exec i s = .next t ∧ StatusIs v (flagged == 0) carry flagged.msb false t ∧
    t.pc = s.pc + BitVec.ofNat 64 len ∧ ChangesOnlyRegs [.rpo, .rsf] s t

/-- `DVR` of `len` bytes completes with the registers after the two destination writes and the flags of the quotient, and
changes nothing else (42_signed_divide.md R162). -/
def DividesInto (i : Instr) (s : State) (d d2 : Reg) (q m : Word) (len : Nat) : Prop :=
  ∃ t, exec i s = .next t ∧ (d ≠ d2 → t.getReg d = q) ∧ t.getReg d2 = m ∧
    StatusIs (s.getReg .rsf) (q == 0) false q.msb false t ∧
    t.pc = s.pc + BitVec.ofNat 64 len ∧ ChangesOnlyRegs [.rpo, .rsf, d, d2] s t

/-- `v` is the low `w` bits of `x` with the rest filled from bit `w - 1` (00_scope.md R8). -/
def IsSignExtended (w : Nat) (x v : Word) : Prop :=
  ∀ k, k < 64 → v.getLsbD k = if k < w then x.getLsbD k else x.getLsbD (w - 1)

/-- A flag-preserving move of `len` bytes completes with the sign-extended slice of `sv` in `d`, and changes nothing else
(44_signed_moves.md R180). -/
def MovesSlice (i : Instr) (s : State) (w : Nat) (d : Reg) (sv : Word) (len : Nat) : Prop :=
  ∃ t, exec i s = .next t ∧ IsSignExtended w sv (t.getReg d) ∧ t.pc = s.pc + BitVec.ofNat 64 len ∧
    ChangesOnlyRegs [.rpo, d] s t

/-- A write of `len` bytes completes with the given texts appended to the console and to the file, and changes nothing else
(46_signed_write.md R201). -/
def Writes (i : Instr) (s : State) (console file : List Byte) (len : Nat) : Prop :=
  ∃ t, exec i s = .next t ∧ t.consoleOut = s.consoleOut ++ console ∧ t.fileOut = s.fileOut ++ file ∧
    t.fileOpen = s.fileOpen ∧ t.pc = s.pc + BitVec.ofNat 64 len ∧ KeepsRegsBut [.rpo] s t ∧ KeepsMemory s t ∧
    t.report = .next

/-! ### Invariants of a run -/

/-- Memory is in canonical form and lists nothing at or beyond `MEMSIZE`. -/
def MemoryInv (s : State) : Prop := s.mem.wf ∧ ∀ c ∈ s.mem, c.1 < s.memSize.val

/-- The bytes a decimal text is made of: `-` and the digits (46_signed_write.md R200). -/
def isDecimalByte (b : Byte) : Bool := b == 0x2D || (decide (0x30 ≤ b.toNat) && decide (b.toNat ≤ 0x39))

/-- Both sinks hold nothing but decimal text. -/
def SinksDecimal (s : State) : Prop :=
  (∀ b ∈ s.consoleOut, isDecimalByte b = true) ∧ ∀ b ∈ s.fileOut, isDecimalByte b = true

/-! ### Reading encodings and decimal text -/

/-- The sub-opcodes of the extended page that select no instruction (30_encoding.md R91). -/
def unassignedSub (b : Byte) : Bool :=
  [(0x1C, 0x1F), (0x24, 0x2F), (0x38, 0x3F), (0x44, 0x4F), (0x58, 0x5F), (0x68, 0x6F), (0x73, 0x7F), (0x81, 0xFF)].any
    fun r => decide (r.1 ≤ b.toNat) && decide (b.toNat ≤ r.2)

/-- The number a string of decimal digits stands for, `acc` read before it. -/
def digitsValue : Nat → List Byte → Nat
  | acc, [] => acc
  | acc, b :: bs => digitsValue (10 * acc + (b.toNat - 0x30)) bs

/-- The integer a decimal text stands for, `-` in front of a negative one (46_signed_write.md R200). -/
def decimalValue : List Byte → Int
  | [] => 0
  | b :: bs => if b = 0x2D then -(digitsValue 0 bs : Int) else digitsValue 0 (b :: bs)

/-- The digits of a decimal text. -/
def digitsOf : List Byte → List Byte
  | [] => []
  | b :: bs => if b = 0x2D then bs else b :: bs

end Sys2Proof.Machine
end

