-- ==== Sys2Proof/Certificates/Slice0/Obligations.lean ====
section
/-!
DEFINITION. The statements for the provers. A docstring names the rules of spec/ a statement rests on, and the spec's own
decisions (`D<n>`) or the model's log entries where it rests on those.
-/

open Sys2Proof Sys2Proof.Machine

/-! ### Encoding -/

/-- Decoding the encoding of any instruction gives it back, whatever follows it (30_encoding.md R80 to R90; the opcode values
are decisions D5, D6, D9). -/
def Obligations.DecodeReadsBackEncode : Prop :=
  ∀ (i : Instr) (rest : List Byte), decode (encode i ++ rest) = .ok (i, rest)

/-- Bytes that decode are the encoding of what they decode to: no byte of an instruction is ignored or has a second spelling
(30_encoding.md R85, R93, R94). -/
def Obligations.EncodeRebuildsDecoded : Prop :=
  ∀ (bs rest : List Byte) (i : Instr), decode bs = .ok (i, rest) → bs = encode i ++ rest

/-- Words of the spec's worked examples, one of each family, decode to the instruction they stand for (rules R141, R162, R171,
R182, R203, R191, R194, R210). -/
def Obligations.WorkedExamplesDecode : Prop :=
  decode [0xFF, 0x00, 0x00, 0x01, 0x00, 0x00, 0x00, 0x00, 0x00, 0x00] = .ok (.jltA 0x100, []) ∧
  decode [0xFF, 0x15, 0x06, 0x07, 0x07, 0x00, 0x00, 0x00, 0x00, 0x00, 0x00, 0x00] = .ok (.dvrL 0x06 0x07 7, []) ∧
  decode [0xFF, 0x20, 0x0D, 0x0E] = .ok (.shrR 0x0D 0x0E, []) ∧
  decode [0xFF, 0x36, 0x06, 0x40, 0x00, 0x00, 0x00, 0x00, 0x00, 0x00, 0x00] = .ok (.mvwA 0x06 0x40, []) ∧
  decode [0xFF, 0x50, 0x06] = .ok (.wcnR 0x06, []) ∧
  decode [0xFF, 0x70, 0x09] = .ok (.exb 0x09, []) ∧
  decode [0xFF, 0x80, 0x06] = .ok (.neg 0x06, []) ∧
  decode [0x00] = .ok (.hlt, [])

/-- A first byte `0x01 .. 0xFE`, and exactly the sub-opcodes of R91 after `0xFF`, are rejected as invalid opcodes
(30_encoding.md R91, R92, decision D9). -/
def Obligations.UnassignedOpcodesRejected : Prop :=
  ∀ (b : Byte) (ops : List Byte),
    (b ≠ 0x00 → b ≠ 0xFF → decode (b :: ops) = .error .invalidOpcode) ∧
    (decode (0xFF :: b :: ops) = .error .invalidOpcode ↔ unassignedSub b = true)

/-- R84: the stream bytes consumed are the opcode bytes and the operand bytes, and the opcode bytes alone fix their number. -/
def Obligations.LengthFixedByOpcodeBytes : Prop :=
  ∀ (b : Byte) (bs rest : List Byte) (i : Instr), decode (b :: bs) = .ok (i, rest) →
    i.length = (if b = 0xFF then 2 else 1) + operandBytes i ∧
    (b :: bs).length = i.length + rest.length ∧
    ∀ (bs' rest' : List Byte) (i' : Instr), decode (b :: bs') = .ok (i', rest') →
      (b = 0xFF → bs'.head? = bs.head?) → i'.length = i.length

/-! ### The step -/

/-- When the bytes fetched decode to an instruction, the step is `exec` of it at the same state, with nothing added around it
(40_fetch_decode_operands.md R110 to R112). Which bytes those are is the model's choice: it reads at once the bytes from the
program counter up to twelve or the end of memory, where the rules fetch only the bytes of the instruction, one after another
(DEDUCED, log entry 16). -/
def Obligations.StepRunsDecodedInstruction : Prop :=
  ∀ (s : State),
    s.fetchBytes.length = min 12 (s.memSize.val - s.pc.toNat) ∧
    (∀ k (h : k < s.fetchBytes.length), s.fetchBytes[k] = s.mem.readByte (s.pc.toNat + k)) ∧
    ∀ (i : Instr) (rest : List Byte), decode s.fetchBytes = .ok (i, rest) → step s = exec i s

/-- R10: a step completes, halts or faults, and nothing is refused; it halts exactly when it fetched `HLT`, which neither
completes as another instruction does nor faults. The two completing outcomes are told apart by `report`, the model's field
(log entry 2). -/
def Obligations.StepHasThreeOutcomes : Prop :=
  ∀ (s : State),
    (∃ t, step s = .next t ∧ t.report = .next ∧ s.fetch ≠ .ok .hlt) ∨
    (∃ t, step s = .next t ∧ t.report = .halted ∧ s.fetch = .ok .hlt) ∨
    (∃ f, step s = .fault f ∧ s.fetch ≠ .ok .hlt)

/-- Where the fetch of a step faults, and with what (40_fetch_decode_operands.md R111, R112; 60_exceptions.md R244, R246;
decisions D9 and D20). -/
def Obligations.FetchFaults : Prop :=
  ∀ (s : State) (b0 b1 : Byte), b0 = s.mem.readByte s.pc.toNat → b1 = s.mem.readByte (s.pc.toNat + 1) →
    (s.memSize.val ≤ s.pc.toNat → step s = .fault .memoryBounds) ∧
    (s.memSize.val = s.pc.toNat + 1 → b0 = 0xFF → step s = .fault .memoryBounds) ∧
    (s.pc.toNat < s.memSize.val → b0 ≠ 0x00 → b0 ≠ 0xFF → step s = .fault .invalidOpcode) ∧
    (s.pc.toNat + 1 < s.memSize.val → b0 = 0xFF → unassignedSub b1 = true → step s = .fault .invalidOpcode) ∧
    (∀ i : Instr, s.pc.toNat + 1 < s.memSize.val → [b0, b1] <+: encode i → s.memSize.val < s.pc.toNat + i.length →
      step s = .fault .memoryBounds)

/-- A completed step that takes no jump moves the program counter by the length of the instruction, in the naturals: it stays
within memory and never wraps. A taken jump loads its target (10_state.md R26). -/
def Obligations.StepAdvancesWithoutWrapping : Prop :=
  ∀ (s t : State) (i : Instr) (rest : List Byte), decode s.fetchBytes = .ok (i, rest) → step s = .next t →
    match takenTarget i s with
    | none => t.pc.toNat = s.pc.toNat + i.length ∧ t.pc.toNat ≤ s.memSize.val
    | some target => t.pc = target

/-! ### Whole-machine rules -/

/-- Every step keeps memory in canonical form within `MEMSIZE`. -/
def Obligations.StepKeepsCanonicalMemory : Prop :=
  ∀ (s t : State), MemoryInv s → step s = .next t → MemoryInv t

/-- Every step keeps the sinks free of anything but decimal text: no separator, newline or NUL is ever written
(46_signed_write.md R200, R201; the text format is decision D22). -/
def Obligations.StepKeepsSinksDecimal : Prop :=
  ∀ (s t : State), SinksDecimal s → step s = .next t → SinksDecimal t

/-- The invariants of the two statements above hold at reset. The sinks' part is the model's choice: 10_state.md R40 leaves
their contents to the host, and the model starts both empty (DESIGN CHOICE, log entry 11). The memory's part is R40's, with
the `MEMSIZE` of log entry 1. -/
def Obligations.ResetMeetsInvariants : Prop :=
  MemoryInv State.reset ∧ SinksDecimal State.reset

/-- R30, R34: unless `rsf` is an explicit destination, a flag-preserving instruction leaves it untouched. A flag-setting one
recomputes the four arithmetic flags: where it names `rsf` nowhere, its whole effect is the same whatever those four flags
were, and with one destination Zero and Sign are those of the result in it. Either way FileEnd and bits 63:5 are kept.
Carry and Overflow are in `OverflowClearedCarryOnlyByShr`, `rsf` as a destination (R33) in `MovesSignExtendTheSlice` and
`StatusRegisterAsDestination`. -/
def Obligations.StatusRegisterByClass : Prop :=
  ∀ (i : Instr) (s t : State), exec i s = .next t → idByte .rsf ∉ destIds i →
    (isFlagSetting i = false → t.getReg .rsf = s.getReg .rsf) ∧
    (isFlagSetting i = true →
      (idByte .rsf ∉ i.regIds → ∀ v : Word, v &&& maskSticky = s.getReg .rsf &&& maskSticky →
        exec i (s.setReg .rsf v) = .next t) ∧
      ∀ d, destIds i = [idByte d] → t.flagZ = decide (t.getReg d = 0) ∧ t.flagS = (t.getReg d).getLsbD 63) ∧
    ∀ k, k < 64 → (k = 2 ∨ 5 ≤ k) → (t.getReg .rsf).getLsbD k = (s.getReg .rsf).getLsbD k

/-- R41: after a step `rpo` holds the offset of the next instruction, flag side effects have touched only `rsf`, and `rpo` has
not been written through a destination operand. -/
def Obligations.StepKeepsRegisterInvariants : Prop :=
  ∀ (s t : State) (i : Instr) (rest : List Byte), decode s.fetchBytes = .ok (i, rest) → step s = .next t →
    t.getReg .rpo = (takenTarget i s).getD (s.pc + BitVec.ofNat 64 i.length) ∧
    (∀ r, r ≠ .rpo → (r = .rsf → isFlagSetting i = false) → idByte r ∉ destIds i → t.getReg r = s.getReg r) ∧
    idByte .rpo ∉ destIds i

/-- R126: the program counter after any completed instruction. -/
def Obligations.SequencerWritesProgramCounter : Prop :=
  ∀ (i : Instr) (s t : State), exec i s = .next t →
    t.pc = (takenTarget i s).getD (s.pc + BitVec.ofNat 64 i.length)

/-- No instruction writes memory, changes its size or opens or closes the file (20_memory.md R57; 70_reset_and_hazards.md
R270; 50_interfaces.md R226). -/
def Obligations.StepLeavesMemoryAndInputs : Prop :=
  ∀ (s t : State), step s = .next t → t.mem = s.mem ∧ t.memSize = s.memSize ∧ t.fileOpen = s.fileOpen

/-- The sinks are only appended to, the console by `WCN` and `WCB`, the file by `WFN` and `WFB`, and never read
(50_interfaces.md R224, R225; the lists are decision D23). -/
def Obligations.SinksAreAppendOnly : Prop :=
  ∀ (i : Instr) (s t : State), exec i s = .next t →
    ∃ console file : List Byte,
      t.consoleOut = s.consoleOut ++ console ∧ t.fileOut = s.fileOut ++ file ∧
      (isConsoleWrite i = false → console = []) ∧ (isFileWrite i = false → file = []) ∧
      ∀ c f, exec i { s with consoleOut := c, fileOut := f } =
        .next { t with consoleOut := c ++ console, fileOut := f ++ file }

/-- R32: an instruction that does not name `rsf` depends on nothing of it but, if it is a jump, on Zero, Sign and Overflow.
`report`, compared too, is the model's field (log entry 2). -/
def Obligations.StatusRegisterReadOnlyWhereNamed : Prop :=
  ∀ (i : Instr) (s : State) (v : Word), idByte .rsf ∉ i.regIds →
    (∀ c t, shapeOf i = .jump c t →
      flagOf maskZ v = s.flagZ ∧ flagOf maskS v = s.flagS ∧ flagOf maskO v = s.flagO) →
    (∀ f, exec i s = .fault f ↔ exec i (s.setReg .rsf v) = .fault f) ∧
    ∀ t, exec i s = .next t →
      ∃ t', exec i (s.setReg .rsf v) = .next t' ∧ KeepsRegsBut [.rsf] t t' ∧ KeepsMemory t t' ∧ KeepsSinks t t' ∧
        t'.report = t.report

/-- Every flag-setting instruction clears Overflow, and Carry is 1 only after `SHR` (10_state.md R29; 43_signed_shift.md R171
and 45_sign_extend_negate.md R194 by decisions D16 and D18). -/
def Obligations.OverflowClearedCarryOnlyByShr : Prop :=
  ∀ (i : Instr) (s t : State), exec i s = .next t → isFlagSetting i = true →
    t.flagO = false ∧ (t.flagC = true → ∃ d src, shapeOf i = .dest .shr d src)

/-! ### Faults -/

/-- R114: an instruction whose operands name registers raises IllegalDestination exactly when a destination operand is `rpo`,
whatever its other operands and the state. -/
def Obligations.IllegalDestinationExactly : Prop :=
  ∀ (i : Instr) (s : State), i.WellFormed = true →
    (exec i s = .fault .illegalDestination ↔ (0x00 : Byte) ∈ destIds i)

/-- InvalidRegister is raised exactly when a register id byte is `0x10` or more, before any other check of the operands
(40_fetch_decode_operands.md R113, decisions D3 and D20). -/
def Obligations.InvalidRegisterExactly : Prop :=
  ∀ (i : Instr) (s : State), exec i s = .fault .invalidRegister ↔ ∃ id ∈ i.regIds, 0x10 ≤ id.toNat

/-- R245: `WFN` and `WFB` raise FileOperation exactly when no file is open, and no other instruction does. -/
def Obligations.FileOperationExactly : Prop :=
  ∀ (i : Instr) (s : State), i.WellFormed = true →
    (exec i s = .fault .fileOperation ↔ isFileWrite i = true ∧ s.fileOpen = false)

/-- R122: `DIV`, `DVR` and `REM` raise DivideByZero exactly when the resolved divisor is 0, after the destination check and the
divisor's own read. -/
def Obligations.DivideByZeroExactly : Prop :=
  ∀ (i : Instr) (s : State), i.WellFormed = true → (0x00 : Byte) ∉ destIds i →
    (exec i s = .fault .divideByZero ↔ divisorIsZero i s)

/-- The data read of an Address or Pointer source of `W/8` bytes at `ea` raises MemoryBounds exactly when
`ea + W/8 > MEMSIZE` (40_fetch_decode_operands.md R118; 60_exceptions.md R244; the width is decision D19, the order D20). -/
def Obligations.DataReadBoundsExactly : Prop :=
  ∀ (i : Instr) (s : State), i.WellFormed = true → (0x00 : Byte) ∉ destIds i →
    (isFileWrite i = true → s.fileOpen = true) →
    (exec i s = .fault .memoryBounds ↔ sourceOutOfBounds i s)

/-- No instruction raises a fault that the table of R249 does not give it (60_exceptions.md R249, less the fetch). -/
def Obligations.FaultsWithinTable : Prop :=
  ∀ (i : Instr) (s : State) (f : Fault), exec i s = .fault f → f ∈ mayRaise i

/-- An instruction to which no fault condition applies completes, and one to which a condition applies does not
(60_exceptions.md R240 to R249; decisions D3, D19). -/
def Obligations.CompletesIffNoFaultApplies : Prop :=
  ∀ (i : Instr) (s : State),
    (∃ t, exec i s = .next t) ↔
      (i.WellFormed = true ∧ (0x00 : Byte) ∉ destIds i ∧ (isFileWrite i = true → s.fileOpen = true) ∧
        ¬ sourceOutOfBounds i s ∧ ¬ divisorIsZero i s)

/-! ### Jumps -/

/-- `JLT` jumps iff S ≠ O and `JGE` iff S = O, in both forms (41_signed_jumps.md R141, R144; the target is the offset itself
by decision D8). -/
def Obligations.JltJgeCompareSignOverflow : Prop :=
  ∀ (s : State) (a : Word) (r : Reg),
    JumpsIf (.jltA a) s (s.flagS != s.flagO) a (s.pc + 10) ∧
    JumpsIf (.jltP (idByte r)) s (s.flagS != s.flagO) (s.getReg r) (s.pc + 3) ∧
    JumpsIf (.jgeA a) s (s.flagS == s.flagO) a (s.pc + 10) ∧
    JumpsIf (.jgeP (idByte r)) s (s.flagS == s.flagO) (s.getReg r) (s.pc + 3)

/-- `JLE` jumps iff Z = 1 or S ≠ O and `JGT` iff Z = 0 and S = O, in both forms (41_signed_jumps.md R142, R143; decision
D8). -/
def Obligations.JleJgtCompareWithZero : Prop :=
  ∀ (s : State) (a : Word) (r : Reg),
    JumpsIf (.jleA a) s (s.flagZ || (s.flagS != s.flagO)) a (s.pc + 10) ∧
    JumpsIf (.jleP (idByte r)) s (s.flagZ || (s.flagS != s.flagO)) (s.getReg r) (s.pc + 3) ∧
    JumpsIf (.jgtA a) s (!s.flagZ && (s.flagS == s.flagO)) a (s.pc + 10) ∧
    JumpsIf (.jgtP (idByte r)) s (!s.flagZ && (s.flagS == s.flagO)) (s.getReg r) (s.pc + 3)

/-- `JSI` jumps iff S = 1 and `JNS` iff S = 0, in both forms (41_signed_jumps.md R145, R146; decision D8). -/
def Obligations.JsiJnsTestSign : Prop :=
  ∀ (s : State) (a : Word) (r : Reg),
    JumpsIf (.jsiA a) s s.flagS a (s.pc + 10) ∧
    JumpsIf (.jsiP (idByte r)) s s.flagS (s.getReg r) (s.pc + 3) ∧
    JumpsIf (.jnsA a) s (!s.flagS) a (s.pc + 10) ∧
    JumpsIf (.jnsP (idByte r)) s (!s.flagS) (s.getReg r) (s.pc + 3)

/-- `JOV` jumps iff O = 1 and `JNO` iff O = 0, in both forms (41_signed_jumps.md R147, R148; decision D8). -/
def Obligations.JovJnoTestOverflow : Prop :=
  ∀ (s : State) (a : Word) (r : Reg),
    JumpsIf (.jovA a) s s.flagO a (s.pc + 10) ∧
    JumpsIf (.jovP (idByte r)) s s.flagO (s.getReg r) (s.pc + 3) ∧
    JumpsIf (.jnoA a) s (!s.flagO) a (s.pc + 10) ∧
    JumpsIf (.jnoP (idByte r)) s (!s.flagO) (s.getReg r) (s.pc + 3)

/-! ### Division -/

/-- `DIV d, s` (`divR`, `divL`, `divA`, `divP`): the quotient truncated toward zero, its flags, C and O clear
(42_signed_divide.md R161). `-2^63 / -1` and `d = rsf` have statements of their own. -/
def Obligations.DivGivesTruncatedQuotient : Prop :=
  ∀ (s : State) (d : Reg) (src : Source Reg) (sv : Word), d ≠ .rpo → d ≠ .rsf → src.value s 8 = .ok sv → sv ≠ 0 →
    ¬ (s.getReg d = 0x8000000000000000 ∧ sv = 0xFFFFFFFFFFFFFFFF) →
    ∃ q : Word, q.toInt = (s.getReg d).toInt.tdiv sv.toInt ∧
      SetsRegAndFlags (Shape.dest .div (idByte d) src.raw).instr s d q false (3 + src.size)

/-- `REM d, s` (`remR`, `remL`, `remA`, `remP`): the remainder of the truncating division, its own flags (decision D13), C and
O clear (42_signed_divide.md R163). `-2^63 / -1` is included: remainder 0 with no fault (decision D14). -/
def Obligations.RemGivesTruncatedRemainder : Prop :=
  ∀ (s : State) (d : Reg) (src : Source Reg) (sv : Word), d ≠ .rpo → d ≠ .rsf → src.value s 8 = .ok sv → sv ≠ 0 →
    ∃ m : Word, m.toInt = (s.getReg d).toInt.tmod sv.toInt ∧
      SetsRegAndFlags (Shape.dest .rem (idByte d) src.raw).instr s d m false (3 + src.size)

/-- `DVR d, d2, s` (`dvrR`, `dvrL`, `dvrA`, `dvrP`): quotient into `d`, remainder into `d2`, which keeps it when the two are one
register (decision D12), flags from the quotient (decision D13) (42_signed_divide.md R162). -/
def Obligations.DvrGivesQuotientAndRemainder : Prop :=
  ∀ (s : State) (d d2 : Reg) (src : Source Reg) (sv : Word), d ≠ .rpo → d2 ≠ .rpo → d ≠ .rsf → d2 ≠ .rsf →
    src.value s 8 = .ok sv → sv ≠ 0 → ¬ (s.getReg d = 0x8000000000000000 ∧ sv = 0xFFFFFFFFFFFFFFFF) →
    ∃ q m : Word, q.toInt = (s.getReg d).toInt.tdiv sv.toInt ∧ m.toInt = (s.getReg d).toInt.tmod sv.toInt ∧
      DividesInto (Shape.dvr (idByte d) (idByte d2) src.raw).instr s d d2 q m (4 + src.size)

/-- `-2^63 / -1` raises no fault: quotient `0x8000000000000000`, remainder 0, Overflow clear (42_signed_divide.md R160,
decision D14, log entry 6). -/
def Obligations.MinByMinusOneWraps : Prop :=
  ∀ (s : State) (d d2 : Reg) (src : Source Reg), d ≠ .rpo → d2 ≠ .rpo → d ≠ .rsf → d2 ≠ .rsf →
    src.value s 8 = .ok 0xFFFFFFFFFFFFFFFF → s.getReg d = 0x8000000000000000 →
    SetsRegAndFlags (Shape.dest .div (idByte d) src.raw).instr s d 0x8000000000000000 false (3 + src.size) ∧
    SetsRegAndFlags (Shape.dest .rem (idByte d) src.raw).instr s d 0 false (3 + src.size) ∧
    DividesInto (Shape.dvr (idByte d) (idByte d2) src.raw).instr s d d2 0x8000000000000000 0 (4 + src.size)

/-- The division law: dividend = divisor * quotient + remainder, the remainder smaller than the divisor and zero or of the
dividend's sign (42_signed_divide.md R160; `-2^63 / -1` has a statement of its own). -/
def Obligations.DivisionLaw : Prop :=
  ∀ (a b : Word), b ≠ 0 → ¬ (a = 0x8000000000000000 ∧ b = 0xFFFFFFFFFFFFFFFF) →
    ∃ q m : Word, quotRem a b = .ok (q, m) ∧ a.toInt = b.toInt * q.toInt + m.toInt ∧
      m.toInt.natAbs < b.toInt.natAbs ∧ (m.toInt = 0 ∨ (m.toInt < 0 ↔ a.toInt < 0))

/-! ### Shift -/

/-- `SHR d, s` (`shrR`, `shrL`, `shrA`, `shrP`): the value divided by `2^n` rounding down, the sign for `n >= 64` (decision D17);
Carry iff a bit shifted out differs from the sign (decision D15); Overflow clear (decision D16) (43_signed_shift.md R170,
R171). -/
def Obligations.ShrShiftsArithmetically : Prop :=
  ∀ (s : State) (d : Reg) (src : Source Reg) (n : Word), d ≠ .rpo → d ≠ .rsf → src.value s 8 = .ok n →
    ∃ (r : Word) (c : Bool),
      (n.toNat < 64 → r.toInt = (s.getReg d).toInt / 2 ^ n.toNat) ∧
      (64 ≤ n.toNat → r = if (s.getReg d).msb then 0xFFFFFFFFFFFFFFFF else 0) ∧
      (c = true ↔ ∃ k, k < n.toNat ∧ k < 64 ∧ (s.getReg d).getLsbD k ≠ (s.getReg d).getLsbD 63) ∧
      SetsRegAndFlags (Shape.dest .shr (idByte d) src.raw).instr s d r c (3 + src.size)

/-- The two families of points of `shrCarry` that the source fixes, and the saturation of the amount (43_signed_shift.md R170,
decisions D15 and D17, log entry 5). -/
def Obligations.ShrCarrySourcePoints : Prop :=
  (∀ n : Word, shrCarry 0 n = false) ∧ shrCarry 0x8000000000000000 63 = true ∧
  (∀ v : Word, sar v 0 = v ∧ shrCarry v 0 = false) ∧
  ∀ v n : Word, 64 ≤ n.toNat → sar v n = sar v 64 ∧ shrCarry v n = shrCarry v 64

/-! ### Moves, extensions and negation -/

/-- `MVB`, `MVW`, `MVD` in their four forms: the low 8, 16 or 32 bits of the source, sign-extended, into any register but
`rpo`; `rsf` is a destination like any other and no flag is set as a side effect (44_signed_moves.md R180 to R183). -/
def Obligations.MovesSignExtendTheSlice : Prop :=
  ∀ (s : State) (d : Reg) (src : Source Reg) (sv : Word), d ≠ .rpo →
    (src.value s 1 = .ok sv → MovesSlice (Shape.dest .mvb (idByte d) src.raw).instr s 8 d sv (3 + src.size)) ∧
    (src.value s 2 = .ok sv → MovesSlice (Shape.dest .mvw (idByte d) src.raw).instr s 16 d sv (3 + src.size)) ∧
    (src.value s 4 = .ok sv → MovesSlice (Shape.dest .mvd (idByte d) src.raw).instr s 32 d sv (3 + src.size))

/-- `EXB`, `EXW`, `EXD`: the register's own low 8, 16 or 32 bits sign-extended in place, Zero and Sign from the result, Carry
and Overflow clear (45_sign_extend_negate.md R190 to R193). -/
def Obligations.ExtendsInPlace : Prop :=
  ∀ (s : State) (d : Reg), d ≠ .rpo → d ≠ .rsf →
    (∃ v, IsSignExtended 8 (s.getReg d) v ∧ SetsRegAndFlags (.exb (idByte d)) s d v false 3) ∧
    (∃ v, IsSignExtended 16 (s.getReg d) v ∧ SetsRegAndFlags (.exw (idByte d)) s d v false 3) ∧
    (∃ v, IsSignExtended 32 (s.getReg d) v ∧ SetsRegAndFlags (.exd (idByte d)) s d v false 3)

/-- `NEG`: the two's-complement negation in place, wrapping, with no Overflow; Carry is cleared by decision D18
(45_sign_extend_negate.md R194). -/
def Obligations.NegNegatesModulo : Prop :=
  ∀ (s : State) (d : Reg), d ≠ .rpo → d ≠ .rsf →
    ∃ v : Word, v.toNat = (2 ^ 64 - (s.getReg d).toNat) % 2 ^ 64 ∧ SetsRegAndFlags (.neg (idByte d)) s d v false 3

/-- `NEG` twice restores the register, with the flags of the original value, and `EXB`, `EXW`, `EXD` twice do what once does to
the register and `rsf` (45_sign_extend_negate.md R190, R194). -/
def Obligations.UnaryTwice : Prop :=
  ∀ (s : State) (d : Reg), d ≠ .rpo → d ≠ .rsf →
    (∃ t u, exec (.neg (idByte d)) s = .next t ∧ exec (.neg (idByte d)) t = .next u ∧ u.getReg d = s.getReg d ∧
      u.flagZ = (s.getReg d == 0) ∧ u.flagS = (s.getReg d).msb) ∧
    ∀ op : UnaryOp, op ≠ .neg →
      ∃ t u, exec (Shape.unary op (idByte d)).instr s = .next t ∧ exec (Shape.unary op (idByte d)).instr t = .next u ∧
        u.getReg d = t.getReg d ∧ u.getReg .rsf = t.getReg .rsf

/-- `rsf` as the destination of a flag-setting instruction: the result is written first, then its flags over bits 0, 1, 3 and 4
(10_state.md R33, decision D11). -/
def Obligations.StatusRegisterAsDestination : Prop :=
  ∀ (s : State) (d : Reg) (src : Source Reg) (sv q m : Word), src.value s 8 = .ok sv →
    (quotRem (s.getReg .rsf) sv = .ok (q, m) →
      SetsStatusRegister (Shape.dest .div (idByte .rsf) src.raw).instr s q q false (3 + src.size) ∧
      SetsStatusRegister (Shape.dest .rem (idByte .rsf) src.raw).instr s m m false (3 + src.size) ∧
      (d ≠ .rpo → ∃ t, exec (Shape.dvr (idByte .rsf) (idByte d) src.raw).instr s = .next t ∧
        StatusIs (if d = .rsf then m else q) (q == 0) false q.msb false t ∧ (d ≠ .rsf → t.getReg d = m) ∧
        t.pc = s.pc + BitVec.ofNat 64 (4 + src.size) ∧ ChangesOnlyRegs [.rpo, .rsf, d] s t)) ∧
    (d ≠ .rpo → d ≠ .rsf → quotRem (s.getReg d) sv = .ok (q, m) →
      ∃ t, exec (Shape.dvr (idByte d) (idByte .rsf) src.raw).instr s = .next t ∧
        StatusIs m (q == 0) false q.msb false t ∧ t.getReg d = q ∧
        t.pc = s.pc + BitVec.ofNat 64 (4 + src.size) ∧ ChangesOnlyRegs [.rpo, .rsf, d] s t) ∧
    SetsStatusRegister (Shape.dest .shr (idByte .rsf) src.raw).instr s (sar (s.getReg .rsf) sv) (sar (s.getReg .rsf) sv)
      (shrCarry (s.getReg .rsf) sv) (3 + src.size) ∧
    SetsStatusRegister (.exb (idByte .rsf)) s (sext 8 (s.getReg .rsf)) (sext 8 (s.getReg .rsf)) false 3 ∧
    SetsStatusRegister (.exw (idByte .rsf)) s (sext 16 (s.getReg .rsf)) (sext 16 (s.getReg .rsf)) false 3 ∧
    SetsStatusRegister (.exd (idByte .rsf)) s (sext 32 (s.getReg .rsf)) (sext 32 (s.getReg .rsf)) false 3 ∧
    SetsStatusRegister (.neg (idByte .rsf)) s (-(s.getReg .rsf)) (-(s.getReg .rsf)) false 3

/-! ### Writes and halt -/

/-- `WCN` and `WCB` in their four forms append the signed decimal text of the source, 64 or 8 bits of it, to the console
(46_signed_write.md R201, R203, R204). -/
def Obligations.ConsoleWritesAppendDecimal : Prop :=
  ∀ (s : State) (src : Source Reg) (sv : Word),
    (src.value s 8 = .ok sv →
      Writes (Shape.write .wcn src.raw).instr s (decSigned sv.toInt) [] (2 + src.size)) ∧
    (src.value s 1 = .ok sv →
      Writes (Shape.write .wcb src.raw).instr s (decSigned (BitVec.ofNat 8 sv.toNat).toInt) [] (2 + src.size))

/-- `WFN` and `WFB` in their four forms, with a file open, append the same text to the file (46_signed_write.md R201, R205,
R206). -/
def Obligations.FileWritesAppendDecimal : Prop :=
  ∀ (s : State) (src : Source Reg) (sv : Word), s.fileOpen = true →
    (src.value s 8 = .ok sv →
      Writes (Shape.write .wfn src.raw).instr s [] (decSigned sv.toInt) (2 + src.size)) ∧
    (src.value s 1 = .ok sv →
      Writes (Shape.write .wfb src.raw).instr s [] (decSigned (BitVec.ofNat 8 sv.toNat).toInt) (2 + src.size))

/-- The decimal text of every 64-bit signed integer: 1 to 20 bytes that read back to it, `-` exactly in front of the negative
ones, then digits only, with no leading zero but in the text of 0, which is the single byte `0x30` (46_signed_write.md R200,
decision D22). -/
def Obligations.DecimalTextReadsBack : Prop :=
  decSigned 0 = [0x30] ∧
  ∀ z : Int, -2 ^ 63 ≤ z → z < 2 ^ 63 →
    decimalValue (decSigned z) = z ∧ 1 ≤ (decSigned z).length ∧ (decSigned z).length ≤ 20 ∧
    ((decSigned z).head? = some 0x2D ↔ z < 0) ∧
    (∀ b ∈ digitsOf (decSigned z), 0x30 ≤ b.toNat ∧ b.toNat ≤ 0x39) ∧
    ((digitsOf (decSigned z)).head? = some 0x30 ↔ z = 0)

/-- `HLT` moves the program counter by one, reports the halt and changes nothing else (47_halt.md R210, decision D9; the report
is the model's field, log entry 2). -/
def Obligations.HltHalts : Prop :=
  ∀ (s : State), ∃ t, exec .hlt s = .next t ∧ t.report = .halted ∧ t.pc = s.pc + 1 ∧ KeepsRegsBut [.rpo] s t ∧
    KeepsMemory s t ∧ KeepsSinks s t

/-- What each operand class delivers: the register's 64 bits (`p0` for `rpo`, decision D10), the literal, or the bytes of memory
at the address or at the register's current value; a jump's operand delivers the offset itself (decision D8)
(40_fetch_decode_operands.md R117 to R121). -/
def Obligations.OperandClassesDeliver : Prop :=
  ∀ (s : State) (n : Nat) (r : Reg) (v : Word),
    (Source.reg r).value s n = .ok (s.getReg r) ∧ (Source.reg .rpo).value s n = .ok s.pc ∧
    (Source.lit v).value s n = .ok v ∧ (Source.addr v).value s n = s.memRead v n ∧
    (Source.ptr r).value s n = s.memRead (s.getReg r) n ∧
    (Target.addr v).offset s = v ∧ (Target.ptr r).offset s = s.getReg r

/-! ### Flags, memory and the host -/

/-- R31: `SetFlags` is the read-modify-write of bits 0, 1, 3 and 4, and `SetZS` the case of a 64-bit result. -/
def Obligations.SetFlagsTouchesFourBits : Prop :=
  (∀ (z c n o : Bool) (v : Word),
    setFlags z c n o v = (v &&& 0xFFFFFFFFFFFFFFE4) ||| (BitVec.ofBool z).setWidth 64 |||
      ((BitVec.ofBool c).setWidth 64 <<< 1) ||| ((BitVec.ofBool n).setWidth 64 <<< 3) |||
      ((BitVec.ofBool o).setWidth 64 <<< 4) ∧
    ∀ k, k < 64 → (setFlags z c n o v).getLsbD k =
      if k = 0 then z else if k = 1 then c else if k = 3 then n else if k = 4 then o else v.getLsbD k) ∧
  ∀ (s : State) (r : Word) (c o : Bool),
    s.setZS r c o = s.setReg .rsf (setFlags (decide (r = 0)) c (r.getLsbD 63) o (s.getReg .rsf))

/-- R54: `MemRead(addr, n)` for `n` in 1, 2, 4, 8 is the little-endian value of the bytes, zero above them, and MemoryBounds
when `addr + n > MEMSIZE` in the naturals. -/
def Obligations.MemReadIsLittleEndian : Prop :=
  ∀ (s : State) (addr : Word) (n : Nat), n ∈ [1, 2, 4, 8] →
    (s.memSize.val < addr.toNat + n → s.memRead addr n = .error .memoryBounds) ∧
    (addr.toNat + n ≤ s.memSize.val → ∃ v : Word, s.memRead addr n = .ok v ∧
      (∀ i j, i < n → j < 8 → v.getLsbD (8 * i + j) = (s.mem.readByte (addr.toNat + i)).getLsbD j) ∧
      ∀ k, 8 * n ≤ k → v.getLsbD k = false)

/-- R55: `MemWrite(addr, n, v)` stores bits `8i+7 : 8i` of `v` at `addr + i` and nothing else, or raises MemoryBounds and writes
nothing; no instruction calls it. -/
def Obligations.MemWriteStoresLowBytes : Prop :=
  (∀ (s : State) (addr : Word) (n : Nat) (v : Word), s.mem.wf → n ∈ [1, 2, 4, 8] →
    (s.memSize.val < addr.toNat + n → s.memWrite addr n v = .error .memoryBounds) ∧
    (addr.toNat + n ≤ s.memSize.val → ∃ t, s.memWrite addr n v = .ok t ∧
      (∀ i j, i < n → j < 8 → (t.mem.readByte (addr.toNat + i)).getLsbD j = v.getLsbD (8 * i + j)) ∧
      (∀ a, a < addr.toNat ∨ addr.toNat + n ≤ a → t.mem.readByte a = s.mem.readByte a) ∧
      t.memSize = s.memSize ∧ KeepsRegsBut [] s t ∧ KeepsSinks s t ∧ t.mem.wf)) ∧
  ∀ (i : Instr) (s t : State), exec i s = .next t → t.mem = s.mem

/-- R270: `Construct(MEMSIZE)` gives all registers, the program counter among them, and every memory byte 0, and a `MEMSIZE`
that no step changes. `State.reset` is such a construction. -/
def Obligations.ConstructZeroesEverything : Prop :=
  (∀ n : MemSize, (∀ r, (State.construct n).getReg r = 0) ∧ (State.construct n).pc = 0 ∧
    (∀ a, (State.construct n).mem.readByte a = 0) ∧ (State.construct n).memSize = n) ∧
  (∃ n, State.reset = State.construct n) ∧
  ∀ s t, step s = .next t → t.memSize = s.memSize

/-- `Load` puts the program at offset 0 and leaves the rest as it was, or refuses it whole when it is too long; the next step
from program counter 0 executes its first instruction (70_reset_and_hazards.md R273, decision D24; 20_memory.md R65). -/
def Obligations.LoadedProgramRuns : Prop :=
  ∀ (s : State) (bytes : List Byte), s.mem.wf →
    (s.memSize.val < bytes.length → s.load bytes = .error .memoryBounds) ∧
    (bytes.length ≤ s.memSize.val → ∃ t, s.load bytes = .ok t ∧
      (∀ k (h : k < bytes.length), t.mem.readByte k = bytes[k]) ∧
      (∀ a, bytes.length ≤ a → t.mem.readByte a = s.mem.readByte a) ∧
      t.memSize = s.memSize ∧ KeepsRegsBut [] s t ∧ KeepsSinks s t ∧
      ∀ (i : Instr), s.pc = 0 → encode i <+: bytes → step t = exec i t)

/-- The host's direct access: a register write of any register, `rpo` included, reads back and changes no other; the file sink
it sets is the one the next file write finds (50_interfaces.md R227, R229; what stays in the list when the sink is closed is
log entry 12 and is not stated here). -/
def Obligations.HostAccessBetweenSteps : Prop :=
  ∀ (s : State) (r : Reg) (v : Word) (content : List Byte),
    (s.hostWriteReg r v).hostReadReg r = v ∧ KeepsRegsBut [r] s (s.hostWriteReg r v) ∧
    KeepsMemory s (s.hostWriteReg r v) ∧ KeepsSinks s (s.hostWriteReg r v) ∧
    Writes (.wfnL v) (s.setFileSink (some content)) [] (decSigned v.toInt) 10 ∧
    (s.setFileSink (some content)).fileOut = content ∧
    exec (.wfnL v) (s.setFileSink none) = .fault .fileOperation

/-- A run is repeated step: with no budget it is suspended where it started; else it takes one step, ends there if that
halted or faulted, and goes on from the next state otherwise. So a run that faulted, or halted, stands after fewer completed
steps in a state whose next step faults so, or is the halting one; a suspended run goes on as if it had not been; a longer
budget changes no end; and no end is a refusal. No halt is latched: what the last step reported has no influence on the next
(50_interfaces.md R222, 47_halt.md R211, 60_exceptions.md R254, decisions D26 and D27; `report` is the model's field, log
entry 2, and a fault leaves the state of before the step, log entry 15). -/
def Obligations.RunEndsAsItsLastStep : Prop :=
  ∀ (k : Nat) (s : State),
    run 0 s = (.stopped, s) ∧
    (∀ u, step s = .next u → u.report = .halted → run (k + 1) s = (.halted, u)) ∧
    (∀ u, step s = .next u → u.report = .next → run (k + 1) s = run k u) ∧
    (∀ f, step s = .fault f → run (k + 1) s = (.fault f, s)) ∧
    ∀ (t : State) (e : RunEnd), run k s = (e, t) →
      (∀ f, e = .fault f → step t = .fault f ∧ ∃ j < k, run j s = (.stopped, t)) ∧
      (e = .halted → t.report = .halted ∧ ∃ j < k, ∃ u, run j s = (.stopped, u) ∧ u.fetch = .ok .hlt ∧ step u = .next t) ∧
      (e = .stopped → ∀ j, run (k + j) s = run j t) ∧
      (e ≠ .stopped → ∀ j, run (k + j) s = (e, t)) ∧
      (∀ r, e ≠ .refused r) ∧ ∀ how, step { t with report := how } = step t
end

