-- ==== Sys2Proof/Laws/State.lean ====
section
/-!
SUPPORT. What each update of the state leaves in each field, one lemma per field per update.
-/

namespace Sys2Proof.Machine

theorem getReg_setReg (s : State) (r r' : Reg) (v : Word) :
    (s.setReg r v).getReg r' = if r' = r then v else s.getReg r' := by
  by_cases h : r' = r
  · subst h; simp [State.getReg, State.setReg]
  · have : r.val ≠ r'.val := fun e => h (Fin.ext e.symm)
    simp [State.getReg, State.setReg, h, this]

@[simp] theorem getReg_setReg_self (s : State) (r : Reg) (v : Word) : (s.setReg r v).getReg r = v := by
  simp [getReg_setReg]

@[simp] theorem getReg_setReg_ne (s : State) {r r' : Reg} (v : Word) (h : r' ≠ r) :
    (s.setReg r v).getReg r' = s.getReg r' := by
  simp [getReg_setReg, h]

@[simp] theorem setReg_mem (s : State) (r : Reg) (v : Word) : (s.setReg r v).mem = s.mem := rfl
@[simp] theorem setReg_memSize (s : State) (r : Reg) (v : Word) : (s.setReg r v).memSize = s.memSize := rfl
@[simp] theorem setReg_consoleOut (s : State) (r : Reg) (v : Word) : (s.setReg r v).consoleOut = s.consoleOut := rfl
@[simp] theorem setReg_fileOut (s : State) (r : Reg) (v : Word) : (s.setReg r v).fileOut = s.fileOut := rfl
@[simp] theorem setReg_fileOpen (s : State) (r : Reg) (v : Word) : (s.setReg r v).fileOpen = s.fileOpen := rfl
@[simp] theorem setReg_report (s : State) (r : Reg) (v : Word) : (s.setReg r v).report = s.report := rfl

@[simp] theorem commitPc_getReg (s : State) (t : Word) (how : StepReport) (r : Reg) :
    (s.commitPc t how).getReg r = if r = .rpo then t else s.getReg r := by
  rw [← getReg_setReg]; rfl

@[simp] theorem commitPc_mem (s : State) (t : Word) (how : StepReport) : (s.commitPc t how).mem = s.mem := rfl
@[simp] theorem commitPc_memSize (s : State) (t : Word) (how : StepReport) :
    (s.commitPc t how).memSize = s.memSize := rfl
@[simp] theorem commitPc_consoleOut (s : State) (t : Word) (how : StepReport) :
    (s.commitPc t how).consoleOut = s.consoleOut := rfl
@[simp] theorem commitPc_fileOut (s : State) (t : Word) (how : StepReport) :
    (s.commitPc t how).fileOut = s.fileOut := rfl
@[simp] theorem commitPc_fileOpen (s : State) (t : Word) (how : StepReport) :
    (s.commitPc t how).fileOpen = s.fileOpen := rfl
@[simp] theorem commitPc_report (s : State) (t : Word) (how : StepReport) : (s.commitPc t how).report = how := rfl

@[simp] theorem advance_getReg (s : State) (n : Nat) (r : Reg) :
    (s.advance n).getReg r = if r = .rpo then s.pc + BitVec.ofNat 64 n else s.getReg r := by
  simp [State.advance]

@[simp] theorem advance_mem (s : State) (n : Nat) : (s.advance n).mem = s.mem := rfl
@[simp] theorem advance_memSize (s : State) (n : Nat) : (s.advance n).memSize = s.memSize := rfl
@[simp] theorem advance_consoleOut (s : State) (n : Nat) : (s.advance n).consoleOut = s.consoleOut := rfl
@[simp] theorem advance_fileOut (s : State) (n : Nat) : (s.advance n).fileOut = s.fileOut := rfl
@[simp] theorem advance_fileOpen (s : State) (n : Nat) : (s.advance n).fileOpen = s.fileOpen := rfl
@[simp] theorem advance_report (s : State) (n : Nat) : (s.advance n).report = .next := rfl

@[simp] theorem setZS_getReg (s : State) (v : Word) (c o : Bool) (r : Reg) :
    (s.setZS v c o).getReg r =
      if r = .rsf then setFlags (v == 0) c v.msb o (s.getReg .rsf) else s.getReg r := by
  simp [State.setZS, getReg_setReg]

@[simp] theorem setZS_mem (s : State) (v : Word) (c o : Bool) : (s.setZS v c o).mem = s.mem := rfl
@[simp] theorem setZS_memSize (s : State) (v : Word) (c o : Bool) : (s.setZS v c o).memSize = s.memSize := rfl
@[simp] theorem setZS_consoleOut (s : State) (v : Word) (c o : Bool) :
    (s.setZS v c o).consoleOut = s.consoleOut := rfl
@[simp] theorem setZS_fileOut (s : State) (v : Word) (c o : Bool) : (s.setZS v c o).fileOut = s.fileOut := rfl
@[simp] theorem setZS_fileOpen (s : State) (v : Word) (c o : Bool) : (s.setZS v c o).fileOpen = s.fileOpen := rfl
@[simp] theorem setZS_report (s : State) (v : Word) (c o : Bool) : (s.setZS v c o).report = s.report := rfl

@[simp] theorem consoleWrite_getReg (s : State) (b : List Byte) (r : Reg) :
    (s.consoleWrite b).getReg r = s.getReg r := rfl
@[simp] theorem consoleWrite_mem (s : State) (b : List Byte) : (s.consoleWrite b).mem = s.mem := rfl
@[simp] theorem consoleWrite_memSize (s : State) (b : List Byte) : (s.consoleWrite b).memSize = s.memSize := rfl
@[simp] theorem consoleWrite_consoleOut (s : State) (b : List Byte) :
    (s.consoleWrite b).consoleOut = s.consoleOut ++ b := rfl
@[simp] theorem consoleWrite_fileOut (s : State) (b : List Byte) : (s.consoleWrite b).fileOut = s.fileOut := rfl
@[simp] theorem consoleWrite_fileOpen (s : State) (b : List Byte) : (s.consoleWrite b).fileOpen = s.fileOpen := rfl
@[simp] theorem consoleWrite_report (s : State) (b : List Byte) : (s.consoleWrite b).report = s.report := rfl

@[simp] theorem fileWrite_getReg (s : State) (b : List Byte) (r : Reg) : (s.fileWrite b).getReg r = s.getReg r := rfl
@[simp] theorem fileWrite_mem (s : State) (b : List Byte) : (s.fileWrite b).mem = s.mem := rfl
@[simp] theorem fileWrite_memSize (s : State) (b : List Byte) : (s.fileWrite b).memSize = s.memSize := rfl
@[simp] theorem fileWrite_consoleOut (s : State) (b : List Byte) : (s.fileWrite b).consoleOut = s.consoleOut := rfl
@[simp] theorem fileWrite_fileOut (s : State) (b : List Byte) : (s.fileWrite b).fileOut = s.fileOut ++ b := rfl
@[simp] theorem fileWrite_fileOpen (s : State) (b : List Byte) : (s.fileWrite b).fileOpen = s.fileOpen := rfl
@[simp] theorem fileWrite_report (s : State) (b : List Byte) : (s.fileWrite b).report = s.report := rfl

@[simp] theorem rsf_ne_rpo : (Reg.rsf = Reg.rpo) = False := by decide
@[simp] theorem rpo_ne_rsf : (Reg.rpo = Reg.rsf) = False := by decide

theorem pc_def (s : State) : s.pc = s.getReg .rpo := rfl

/-- A state is its registers and its other fields. -/
theorem state_ext {s t : State} (hr : ∀ r, t.getReg r = s.getReg r) (hm : t.mem = s.mem) (hn : t.memSize = s.memSize)
    (hc : t.consoleOut = s.consoleOut) (hf : t.fileOut = s.fileOut) (ho : t.fileOpen = s.fileOpen)
    (hp : t.report = s.report) : t = s := by
  have hv : t.regs = s.regs := Vector.ext fun i hi => hr ⟨i, hi⟩
  cases s; cases t; simp_all

end Sys2Proof.Machine
end

