-- ==== Sys2Proof/Laws/Memory.lean ====
section
/-!
SUPPORT. Memory: every operation keeps the canonical form, reads see the last write, and equal readings are equal data.
-/

namespace Sys2Proof.Machine

/-- Every cell of the memory after a write is an old cell or the written one. -/
theorem mem_writeByte (m : Memory) (a : Nat) (b : Byte) (c : Host.Cell) (h : c ∈ m.writeByte a b) :
    c ∈ m ∨ c = (a, b) := by
  induction m with
  | nil => simp only [Memory.writeByte] at h; split at h <;> simp_all
  | cons x xs ih =>
    obtain ⟨k, v⟩ := x
    simp only [Memory.writeByte] at h
    split at h
    · split at h <;> simp_all; tauto
    · split at h
      · split at h <;> simp_all; tauto
      · simp only [List.mem_cons] at h ⊢
        rcases h with h | h
        · exact .inl (.inl h)
        · rcases ih h with h | h <;> tauto

theorem wf_tail {c : Host.Cell} {m : Memory} (h : Memory.wf (c :: m)) : Memory.wf m :=
  ⟨(List.pairwise_cons.1 h.1).2, fun x hx => h.2 x (List.mem_cons_of_mem _ hx)⟩

theorem writeByte_wf (m : Memory) (a : Nat) (b : Byte) (h : m.wf) : (m.writeByte a b).wf := by
  induction m with
  | nil => simp only [Memory.writeByte]; split <;> simp_all [Memory.wf]
  | cons x xs ih =>
    obtain ⟨k, v⟩ := x
    obtain ⟨hlt, hp⟩ := List.pairwise_cons.1 h.1
    have hv : v ≠ unlistedByte := h.2 _ List.mem_cons_self
    simp only [Memory.writeByte]
    split
    · split
      · exact h
      · rename_i hak hb
        refine ⟨List.pairwise_cons.2 ⟨fun c hc => ?_, h.1⟩, fun c hc => ?_⟩
        · rcases List.mem_cons.1 hc with rfl | hc
          · exact hak
          · exact lt_trans hak (hlt c hc)
        · rcases List.mem_cons.1 hc with rfl | hc
          · exact hb
          · exact h.2 c hc
    · split
      · split
        · exact wf_tail h
        · rename_i hk hb
          subst hk
          refine ⟨List.pairwise_cons.2 ⟨hlt, hp⟩, fun c hc => ?_⟩
          rcases List.mem_cons.1 hc with rfl | hc
          · exact hb
          · exact h.2 c (List.mem_cons_of_mem _ hc)
      · rename_i h1 h2
        have hi := ih (wf_tail h)
        refine ⟨List.pairwise_cons.2 ⟨fun c hc => ?_, hi.1⟩, fun c hc => ?_⟩
        · rcases mem_writeByte xs a b c hc with hc | rfl
          · exact hlt c hc
          · show k < a; omega
        · rcases List.mem_cons.1 hc with rfl | hc
          · exact hv
          · exact hi.2 c hc

theorem writeBytes_wf (bs : List Byte) : ∀ (m : Memory) (a : Nat), m.wf → (m.writeBytes a bs).wf := by
  induction bs with
  | nil => intro m a h; exact h
  | cons b bs ih => intro m a h; exact ih _ _ (writeByte_wf m a b h)

/-- Below its first cell a canonical memory reads as unlisted. -/
theorem readByte_below (m : Memory) (a : Nat) (h : ∀ c ∈ m, a < c.1) : m.readByte a = unlistedByte := by
  induction m with
  | nil => rfl
  | cons x xs ih =>
    have hx := h x List.mem_cons_self
    simp only [Memory.readByte, if_neg (Nat.ne_of_lt hx)]
    exact ih fun c hc => h c (List.mem_cons_of_mem _ hc)

theorem readByte_writeByte (m : Memory) (a a' : Nat) (b : Byte) (h : m.wf) :
    (m.writeByte a b).readByte a' = if a' = a then b else m.readByte a' := by
  induction m with
  | nil =>
    simp only [Memory.writeByte]
    split
    · rename_i hb; subst hb; simp [Memory.readByte]
    · simp [Memory.readByte]
  | cons x xs ih =>
    obtain ⟨k, v⟩ := x
    have hlt := (List.pairwise_cons.1 h.1).1
    simp only [Memory.writeByte]
    split
    · rename_i hak
      split
      · rename_i hb
        by_cases ha : a' = a
        · subst ha
          rw [if_pos rfl, hb, readByte_below]
          intro c hc
          rcases List.mem_cons.1 hc with rfl | hc
          · exact hak
          · exact lt_trans hak (hlt c hc)
        · rw [if_neg ha]
      · simp [Memory.readByte]
    · split
      · rename_i hk
        subst hk
        split
        · rename_i hb
          by_cases ha : a' = a
          · subst ha
            rw [if_pos rfl, hb]
            exact readByte_below _ _ hlt
          · simp [Memory.readByte, ha]
        · by_cases ha : a' = a <;> simp [Memory.readByte, ha]
      · rename_i h1 h2
        by_cases ha : a' = k
        · subst ha
          have : a' ≠ a := fun e => h2 e.symm
          simp [Memory.readByte, this]
        · simp [Memory.readByte, ha, ih (wf_tail h)]

theorem readByte_writeBytes (bs : List Byte) :
    ∀ (m : Memory) (a a' : Nat), m.wf →
      (m.writeBytes a bs).readByte a' =
        if h : a ≤ a' ∧ a' < a + bs.length then bs[a' - a]'(by omega) else m.readByte a' := by
  induction bs with
  | nil => intro m a a' _; rw [dif_neg (by simp)]; rfl
  | cons b bs ih =>
    intro m a a' h
    show (Memory.writeBytes (m.writeByte a b) (a + 1) bs).readByte a' = _
    rw [ih _ _ _ (writeByte_wf m a b h)]
    by_cases h1 : a + 1 ≤ a' ∧ a' < a + 1 + bs.length
    · have h2 : a ≤ a' ∧ a' < a + (b :: bs).length := by simp; omega
      rw [dif_pos h1, dif_pos h2]
      have : a' - a = (a' - (a + 1)) + 1 := by omega
      simp [this]
    · rw [dif_neg h1, readByte_writeByte _ _ _ _ h]
      by_cases ha : a' = a
      · subst ha; simp
      · have h2 : ¬(a ≤ a' ∧ a' < a + (b :: bs).length) := by simp only [List.length_cons]; omega
        rw [if_neg ha, dif_neg h2]

/-- Every cell after a store is an old cell or lies in the stored range. -/
theorem mem_writeBytes (bs : List Byte) :
    ∀ (m : Memory) (a : Nat) (c : Host.Cell), c ∈ m.writeBytes a bs → c ∈ m ∨ (a ≤ c.1 ∧ c.1 < a + bs.length) := by
  induction bs with
  | nil => intro m a c h; exact .inl h
  | cons b bs ih =>
    intro m a c h
    rcases ih _ _ _ h with h | h
    · rcases mem_writeByte m a b c h with h | rfl
      · exact .inl h
      · exact .inr ⟨le_refl _, by simp⟩
    · exact .inr ⟨by omega, by simp only [List.length_cons]; omega⟩

@[simp] theorem readBytes_length (m : Memory) (a n : Nat) : (m.readBytes a n).length = n := by
  induction n generalizing a with
  | zero => rfl
  | succ n ih => simp [Memory.readBytes, ih]

theorem readBytes_getElem (m : Memory) (n : Nat) :
    ∀ (a i : Nat) (h : i < (m.readBytes a n).length), (m.readBytes a n)[i] = m.readByte (a + i) := by
  induction n with
  | zero => intro a i h; simp [Memory.readBytes] at h
  | succ n ih =>
    intro a i h
    cases i with
    | zero => rfl
    | succ i =>
      show (m.readBytes (a + 1) n)[i]'(by simpa using h) = _
      rw [ih]; congr 1; omega

/-- What has been stored is read back. -/
theorem readBytes_writeBytes (m : Memory) (a : Nat) (bs : List Byte) (h : m.wf) :
    (m.writeBytes a bs).readBytes a bs.length = bs := by
  apply List.ext_getElem (by simp)
  intro i h1 h2
  rw [readBytes_getElem, readByte_writeBytes _ _ _ _ h, dif_pos (by omega)]
  congr 1; omega

/-- Two canonical memories that read alike are the same data. -/
theorem memory_ext (m m' : Memory) (h : m.wf) (h' : m'.wf) (hr : ∀ a, m.readByte a = m'.readByte a) : m = m' := by
  induction m generalizing m' with
  | nil =>
    cases m' with
    | nil => rfl
    | cons y ys =>
      have := hr y.1
      simp only [Memory.readByte, if_pos] at this
      exact absurd this.symm (h'.2 y List.mem_cons_self)
  | cons x xs ih =>
    have hx := h.2 x List.mem_cons_self
    have lx := (List.pairwise_cons.1 h.1).1
    cases m' with
    | nil =>
      have := hr x.1
      simp only [Memory.readByte, if_pos] at this
      exact absurd this hx
    | cons y ys =>
      have hy := h'.2 y List.mem_cons_self
      have ly := (List.pairwise_cons.1 h'.1).1
      have hk : x.1 = y.1 := by
        rcases Nat.lt_trichotomy x.1 y.1 with hlt | heq | hlt
        · have e := hr x.1
          simp only [Memory.readByte, if_pos, if_neg (Nat.ne_of_lt hlt)] at e
          rw [readByte_below ys x.1 fun c hc => lt_trans hlt (ly c hc)] at e
          exact absurd e hx
        · exact heq
        · have e := hr y.1
          simp only [Memory.readByte, if_pos, if_neg (Nat.ne_of_lt hlt)] at e
          rw [readByte_below xs y.1 fun c hc => lt_trans hlt (lx c hc)] at e
          exact absurd e.symm hy
      have hv : x.2 = y.2 := by
        have e := hr x.1
        simpa [Memory.readByte, hk] using e
      have hxy : x = y := Prod.ext hk hv
      subst hxy
      congr 1
      refine ih ys (wf_tail h) (wf_tail h') fun a => ?_
      by_cases ha : a = x.1
      · subst ha
        rw [readByte_below xs x.1 lx, readByte_below ys x.1 ly]
      · have e := hr a
        simpa [Memory.readByte, ha] using e

theorem reset_memory_wf : State.reset.mem.wf := by decide

theorem memRead_ok {s : State} {a : Word} {n : Nat} (h : a.toNat + n ≤ s.memSize.val) :
    s.memRead a n = .ok (leWord (s.mem.readBytes a.toNat n)) := by
  simp [State.memRead, State.admits, h]

theorem memRead_error {s : State} {a : Word} {n : Nat} (h : s.memSize.val < a.toNat + n) :
    s.memRead a n = .error .memoryBounds := by
  simp [State.memRead, State.admits, Nat.not_le.2 h]

/-- The one way MemWrite answers a state. -/
theorem memWrite_ok_iff (s t : State) (a : Word) (n : Nat) (v : Word) :
    s.memWrite a n v = .ok t ↔
      a.toNat + n ≤ s.memSize.val ∧ t = { s with mem := s.mem.writeBytes a.toNat (leBytes n v.toNat) } := by
  by_cases h : a.toNat + n ≤ s.memSize.val <;> simp [State.memWrite, State.admits, h, eq_comm]

@[simp] theorem leBytes_length (n v : Nat) : (leBytes n v).length = n := by
  induction n generalizing v with
  | zero => rfl
  | succ n ih => simp [leBytes, ih]

theorem memWrite_memoryInv {s t : State} {a : Word} {n : Nat} {v : Word} (hs : MemoryInv s)
    (h : s.memWrite a n v = .ok t) : MemoryInv t := by
  obtain ⟨hb, rfl⟩ := (memWrite_ok_iff ..).1 h
  refine ⟨writeBytes_wf _ _ _ hs.1, fun c hc => ?_⟩
  rcases mem_writeBytes _ _ _ _ hc with hc | hc
  · exact hs.2 c hc
  · simp only [leBytes_length] at hc; show c.1 < s.memSize.val; omega

theorem load_ok_iff (s t : State) (bytes : List Byte) :
    s.load bytes = .ok t ↔ bytes.length ≤ s.memSize.val ∧ t = { s with mem := s.mem.writeBytes 0 bytes } := by
  by_cases h : bytes.length ≤ s.memSize.val <;> simp [State.load, h, eq_comm]

theorem load_memoryInv {s t : State} {bytes : List Byte} (hs : MemoryInv s) (h : s.load bytes = .ok t) :
    MemoryInv t := by
  obtain ⟨hb, rfl⟩ := (load_ok_iff ..).1 h
  refine ⟨writeBytes_wf _ _ _ hs.1, fun c hc => ?_⟩
  rcases mem_writeBytes _ _ _ _ hc with hc | hc
  · exact hs.2 c hc
  · show c.1 < s.memSize.val; omega

end Sys2Proof.Machine
end

