-- ==== Sys2Proof/Laws/Codec.lean ====
section
/-!
SUPPORT. Byte order and the pieces of the decoder: words as eight bytes, register ids as one.
-/

namespace Sys2Proof

theorem leNat_lt (bs : List Byte) : leNat bs < 256 ^ bs.length := by
  induction bs with
  | nil => simp [leNat]
  | cons b bs ih =>
    have := b.isLt
    simp only [leNat, List.length_cons, Nat.pow_succ]
    omega

theorem leNat_leBytes (n : Nat) : ∀ v, leNat (leBytes n v) = v % 256 ^ n := by
  induction n with
  | zero => intro v; simp [leNat, leBytes, Nat.mod_one]
  | succ n ih =>
    intro v
    have h : 256 ^ (n + 1) = 256 * 256 ^ n := Nat.pow_succ'
    simp only [leBytes, leNat, ih, BitVec.toNat_ofNat, Nat.reducePow, h, Nat.mod_mul]

theorem leBytes_leNat (bs : List Byte) : leBytes bs.length (leNat bs) = bs := by
  induction bs with
  | nil => rfl
  | cons b bs ih =>
    have h := b.isLt
    have h1 : (b.toNat + 256 * leNat bs) / 256 = leNat bs := by omega
    have h2 : BitVec.ofNat 8 (b.toNat + 256 * leNat bs) = b := by
      apply BitVec.eq_of_toNat_eq; simp only [BitVec.toNat_ofNat]; omega
    simp only [List.length_cons, leBytes, leNat, h1, h2, ih]

@[simp] theorem leWord_leBytes (w : Word) : leWord (leBytes 8 w.toNat) = w := by
  have := w.isLt
  apply BitVec.eq_of_toNat_eq
  simp only [leWord, leNat_leBytes, BitVec.toNat_ofNat]
  omega

theorem leBytes_leWord (bs : List Byte) (h : bs.length = 8) : leBytes 8 (leWord bs).toNat = bs := by
  have h1 := leNat_lt bs
  have h2 : (leWord bs).toNat = leNat bs := by
    simp only [leWord, BitVec.toNat_ofNat]
    rw [h] at h1
    omega
  rw [h2, ← h, leBytes_leNat]

@[simp] theorem takeWord_leBytes (w : Word) (rest : List Byte) :
    takeWord (leBytes 8 w.toNat ++ rest) = some (w, rest) := by
  have h := leWord_leBytes w
  simp only [leBytes] at h ⊢
  simp only [List.cons_append, List.nil_append, takeWord, h]

/-- A word is read exactly when its eight bytes stand there. -/
theorem takeWord_eq_some {bs rest : List Byte} {w : Word} (h : takeWord bs = some (w, rest)) :
    bs = leBytes 8 w.toNat ++ rest := by
  unfold takeWord at h
  split at h
  · simp only [Option.some.injEq, Prod.mk.injEq] at h
    obtain ⟨rfl, rfl⟩ := h
    rw [leBytes_leWord _ (by rfl)]
    rfl
  · cases h

theorem takeWord_eq_none {bs : List Byte} : takeWord bs = none ↔ bs.length < 8 := by
  unfold takeWord
  split
  · simp
  · rename_i h
    simp only [true_iff]
    by_contra hc
    match bs, h, hc with
    | b0 :: b1 :: b2 :: b3 :: b4 :: b5 :: b6 :: b7 :: rest, h, _ => exact h _ _ _ _ _ _ _ _ _ rfl
    | [], _, hc => simp at hc
    | [_], _, hc => simp at hc
    | [_, _], _, hc => simp at hc
    | [_, _, _], _, hc => simp at hc
    | [_, _, _, _], _, hc => simp at hc
    | [_, _, _, _, _], _, hc => simp at hc
    | [_, _, _, _, _, _], _, hc => simp at hc
    | [_, _, _, _, _, _, _], _, hc => simp at hc

theorem leNat_testBit (bs : List Byte) :
    ∀ (i j : Nat) (h : i < bs.length), j < 8 → (leNat bs).testBit (8 * i + j) = bs[i].getLsbD j := by
  induction bs with
  | nil => intro i j h; simp at h
  | cons b bs ih =>
    intro i j h hj
    have hb : b.toNat < 2 ^ 8 := b.isLt
    have he : leNat (b :: bs) = 2 ^ 8 * leNat bs + b.toNat := by simp only [leNat]; omega
    rw [he, Nat.testBit_two_pow_mul_add _ hb]
    cases i with
    | zero =>
      rw [if_pos (by omega)]
      simp [BitVec.getLsbD]
    | succ i =>
      rw [if_neg (by omega)]
      have : 8 * (i + 1) + j - 8 = 8 * i + j := by omega
      rw [this, ih i j (by simpa using h) hj]
      rfl

/-- Bit `8i + j` of a word is bit `j` of its byte `i` (20_memory.md R54). -/
theorem leWord_getLsbD (bs : List Byte) (i j : Nat) (h : i < bs.length) (hj : j < 8) (h8 : bs.length ≤ 8) :
    (leWord bs).getLsbD (8 * i + j) = bs[i].getLsbD j := by
  rw [leWord, BitVec.getLsbD_ofNat, leNat_testBit _ _ _ h hj]
  have : 8 * i + j < 64 := by omega
  simp [this]

/-- A word of fewer than eight bytes is zero-extended (20_memory.md R54). -/
theorem leWord_getLsbD_high (bs : List Byte) (k : Nat) (h : 8 * bs.length ≤ k) : (leWord bs).getLsbD k = false := by
  have h1 := leNat_lt bs
  have h2 : leNat bs < 2 ^ k := by
    refine lt_of_lt_of_le h1 ?_
    calc 256 ^ bs.length = 2 ^ (8 * bs.length) := by rw [Nat.pow_mul]
      _ ≤ 2 ^ k := Nat.pow_le_pow_right (by omega) h
  rw [leWord, BitVec.getLsbD_ofNat, Nat.testBit_lt_two_pow h2]
  simp

theorem leBytes_getElem (n : Nat) :
    ∀ (v i : Nat) (h : i < (leBytes n v).length), (leBytes n v)[i] = BitVec.ofNat 8 (v / 256 ^ i) := by
  induction n with
  | zero => intro v i h; simp [leBytes] at h
  | succ n ih =>
    intro v i h
    cases i with
    | zero => simp [leBytes]
    | succ i =>
      show (leBytes n (v / 256))[i]'(by simpa using h) = _
      rw [ih, Nat.div_div_eq_div_mul, Nat.pow_succ, Nat.mul_comm]

/-- All that a layout with one word and nothing before it can read. -/
theorem takeWord_map {mk : Word → Instr} {bs rest : List Byte} {i : Instr} :
    (takeWord bs).map (fun p => (mk p.1, p.2)) = some (i, rest) ↔
      ∃ w, bs = leBytes 8 w.toNat ++ rest ∧ i = mk w := by
  constructor
  · intro h
    cases ht : takeWord bs with
    | none => simp [ht] at h
    | some p =>
      obtain ⟨w, r⟩ := p
      simp only [ht, Option.map_some, Option.some.injEq, Prod.mk.injEq] at h
      exact ⟨w, by rw [← h.2]; exact takeWord_eq_some ht, h.1.symm⟩
  · rintro ⟨w, rfl, rfl⟩; simp

theorem parse_xR (mk : Byte → Instr) (ops rest : List Byte) (i : Instr) :
    (Layout.xR mk).parse ops = some (i, rest) ↔ ∃ a, ops = a :: rest ∧ i = mk a := by
  match ops with
  | [] => simp [Layout.parse]
  | a :: r => simp [Layout.parse, eq_comm, and_comm]

theorem parse_xL (mk : Word → Instr) (ops rest : List Byte) (i : Instr) :
    (Layout.xL mk).parse ops = some (i, rest) ↔ ∃ w, ops = leBytes 8 w.toNat ++ rest ∧ i = mk w := takeWord_map

theorem parse_xRR (mk : Byte → Byte → Instr) (ops rest : List Byte) (i : Instr) :
    (Layout.xRR mk).parse ops = some (i, rest) ↔ ∃ a b, ops = a :: b :: rest ∧ i = mk a b := by
  match ops with
  | [] => simp [Layout.parse]
  | [a] => simp [Layout.parse]
  | a :: b :: r =>
    simp only [Layout.parse, Option.some.injEq, Prod.mk.injEq, List.cons.injEq]
    exact ⟨fun h => ⟨a, b, ⟨rfl, rfl, h.2⟩, h.1.symm⟩, fun ⟨_, _, ⟨ha, hb, hr⟩, hi⟩ => ⟨by rw [hi, ha, hb], hr⟩⟩

theorem parse_xRL (mk : Byte → Word → Instr) (ops rest : List Byte) (i : Instr) :
    (Layout.xRL mk).parse ops = some (i, rest) ↔ ∃ a w, ops = a :: (leBytes 8 w.toNat ++ rest) ∧ i = mk a w := by
  match ops with
  | [] => simp [Layout.parse]
  | a :: r =>
    rw [Layout.parse, takeWord_map]
    simp only [List.cons.injEq]
    exact ⟨fun ⟨w, h⟩ => ⟨a, w, ⟨rfl, h.1⟩, h.2⟩, fun ⟨_, w, ⟨ha, hr⟩, hi⟩ => ⟨w, hr, by rw [hi, ha]⟩⟩

theorem parse_xRRR (mk : Byte → Byte → Byte → Instr) (ops rest : List Byte) (i : Instr) :
    (Layout.xRRR mk).parse ops = some (i, rest) ↔ ∃ a b c, ops = a :: b :: c :: rest ∧ i = mk a b c := by
  match ops with
  | [] => simp [Layout.parse]
  | [a] => simp [Layout.parse]
  | [a, b] => simp [Layout.parse]
  | a :: b :: c :: r =>
    simp only [Layout.parse, Option.some.injEq, Prod.mk.injEq, List.cons.injEq]
    exact ⟨fun h => ⟨a, b, c, ⟨rfl, rfl, rfl, h.2⟩, h.1.symm⟩,
      fun ⟨_, _, _, ⟨ha, hb, hc, hr⟩, hi⟩ => ⟨by rw [hi, ha, hb, hc], hr⟩⟩

theorem parse_xRRL (mk : Byte → Byte → Word → Instr) (ops rest : List Byte) (i : Instr) :
    (Layout.xRRL mk).parse ops = some (i, rest) ↔
      ∃ a b w, ops = a :: b :: (leBytes 8 w.toNat ++ rest) ∧ i = mk a b w := by
  match ops with
  | [] => simp [Layout.parse]
  | [a] => simp [Layout.parse]
  | a :: b :: r =>
    rw [Layout.parse, takeWord_map]
    simp only [List.cons.injEq]
    exact ⟨fun ⟨w, h⟩ => ⟨a, b, w, ⟨rfl, rfl, h.1⟩, h.2⟩,
      fun ⟨_, _, w, ⟨ha, hb, hr⟩, hi⟩ => ⟨w, hr, by rw [hi, ha, hb]⟩⟩

theorem lookupRow_append (rows rows' : List (Byte × Layout)) (b : Byte) :
    lookupRow (rows ++ rows') b = (lookupRow rows b).or (lookupRow rows' b) := by
  induction rows with
  | nil => rfl
  | cons r rows ih =>
    obtain ⟨k, l⟩ := r
    simp only [List.cons_append, lookupRow]
    split
    · rfl
    · exact ih

/-- A row that is found is a row of the table. -/
theorem lookupRow_some {rows : List (Byte × Layout)} {b : Byte} {l : Layout} (h : lookupRow rows b = some l) :
    (b, l) ∈ rows := by
  induction rows with
  | nil => cases h
  | cons r rows ih =>
    obtain ⟨k, l'⟩ := r
    simp only [lookupRow] at h
    split at h
    · rename_i hk; simp only [Option.some.injEq] at h; subst hk; subst h; exact List.mem_cons_self
    · exact List.mem_cons_of_mem _ (ih h)

theorem lookupRow_none {rows : List (Byte × Layout)} {b : Byte} :
    lookupRow rows b = none ↔ ∀ r ∈ rows, b ≠ r.1 := by
  induction rows with
  | nil => simp [lookupRow]
  | cons r rows ih =>
    obtain ⟨k, l⟩ := r
    simp only [lookupRow, List.mem_cons, forall_eq_or_imp]
    split
    · rename_i h; simp [h]
    · rename_i h; simp [h, ih]

/-- All that `decode` can answer with an instruction. -/
theorem decode_ok_cases {bs rest : List Byte} {i : Instr} (h : decode bs = .ok (i, rest)) :
    (bs = 0x00 :: rest ∧ i = .hlt) ∨
      ∃ b ops l, bs = 0xFF :: b :: ops ∧ lookupRow opcodeTable b = some l ∧ l.parse ops = some (i, rest) := by
  match bs, h with
  | b0 :: bs, h =>
    simp only [decode] at h
    split at h
    · rename_i h0
      match bs, h with
      | b1 :: ops, h =>
        simp only at h
        split at h
        · cases h
        · rename_i l hl
          split at h
          · cases h
          · rename_i r hr
            simp only [Except.ok.injEq] at h
            subst h
            exact .inr ⟨b1, ops, l, by rw [h0], hl, hr⟩
    · split at h
      · rename_i h0
        simp only [Except.ok.injEq, Prod.mk.injEq] at h
        exact .inl ⟨by rw [h0, h.2], h.1.symm⟩
      · cases h

theorem decode_extended (b : Byte) (ops : List Byte) (l : Layout) (r : Instr × List Byte)
    (hl : lookupRow opcodeTable b = some l) (hp : l.parse ops = some r) : decode (0xFF :: b :: ops) = .ok r := by
  simp [decode, hl, hp]

end Sys2Proof
end

