-- ==== Sys2Proof/Laws/Flags.lean ====
section
/-!
SUPPORT. What `SetFlags` leaves in each flag and in the sticky bits (10_state.md R31).
-/

namespace Sys2Proof.Machine

theorem and_or_right (a b c : Word) : (a ||| b) &&& c = (a &&& c) ||| (b &&& c) := by
  ext i; simp [Bool.and_or_distrib_right]

/-- A mask disjoint from the sticky bits sees only the four flag bits. -/
theorem setFlags_and_mask (z c n o : Bool) (v m : Word) (h : maskSticky &&& m = 0) :
    setFlags z c n o v &&& m =
      (flagBit maskZ z &&& m) ||| (flagBit maskC c &&& m) ||| (flagBit maskS n &&& m) ||| (flagBit maskO o &&& m) := by
  simp only [setFlags, and_or_right, BitVec.and_assoc, h]
  simp

@[simp] theorem flagOf_maskZ_setFlags (z c n o : Bool) (v : Word) : flagOf maskZ (setFlags z c n o v) = z := by
  rw [flagOf, setFlags_and_mask _ _ _ _ _ _ (by decide)]; revert z c n o; decide

@[simp] theorem flagOf_maskC_setFlags (z c n o : Bool) (v : Word) : flagOf maskC (setFlags z c n o v) = c := by
  rw [flagOf, setFlags_and_mask _ _ _ _ _ _ (by decide)]; revert z c n o; decide

@[simp] theorem flagOf_maskS_setFlags (z c n o : Bool) (v : Word) : flagOf maskS (setFlags z c n o v) = n := by
  rw [flagOf, setFlags_and_mask _ _ _ _ _ _ (by decide)]; revert z c n o; decide

@[simp] theorem flagOf_maskO_setFlags (z c n o : Bool) (v : Word) : flagOf maskO (setFlags z c n o v) = o := by
  rw [flagOf, setFlags_and_mask _ _ _ _ _ _ (by decide)]; revert z c n o; decide

@[simp] theorem setFlags_sticky (z c n o : Bool) (v : Word) :
    setFlags z c n o v &&& maskSticky = v &&& maskSticky := by
  have h : ∀ m b, m &&& maskSticky = 0 → flagBit m b &&& maskSticky = 0 := by
    intro m b hm; cases b <;> simp [flagBit, hm]
  simp only [setFlags, and_or_right, BitVec.and_assoc]
  rw [h _ _ (by decide), h _ _ (by decide), h _ _ (by decide), h _ _ (by decide)]
  simp

/-- `SetFlags` depends on nothing of the old value but its sticky bits. -/
theorem setFlags_congr (z c n o : Bool) {v w : Word} (h : v &&& maskSticky = w &&& maskSticky) :
    setFlags z c n o v = setFlags z c n o w := by
  simp only [setFlags, h]

@[simp] theorem flagOf_maskFE_setFlags (z c n o : Bool) (v : Word) :
    flagOf maskFE (setFlags z c n o v) = flagOf maskFE v := by
  have h (x : Word) : x &&& maskFE = (x &&& maskSticky) &&& maskFE := by
    rw [BitVec.and_assoc]; congr 1
  rw [flagOf, flagOf, h, setFlags_sticky, ← h]

/-- The whole of `SetZS`: the four flags of the result and the sticky bits of what stood in `rsf`. -/
theorem setZS_status (s : State) (v : Word) (c o : Bool) (n : Nat) :
    StatusIs (s.getReg .rsf) (v == 0) c v.msb o ((s.setZS v c o).advance n) := by
  simp [StatusIs, State.flagZ, State.flagC, State.flagS, State.flagO]

end Sys2Proof.Machine
end

