-- ==== Sys2Proof/Laws/Exec.lean ====
section
/-!
SUPPORT. What each shared operation of an instruction's meaning can do, said once; and every instruction as the operation of
its mnemonic.
-/

namespace Sys2Proof.Machine

/-! ### Operands -/

@[simp] theorem regOf_idByte (r : Reg) : regOf (idByte r) = .ok r := by
  have h := r.isLt
  have h1 : (idByte r).toNat = r.val := by
    simp only [idByte, BitVec.toNat_ofNat]; omega
  simp [regOf, h1]

theorem regOf_ok_iff (id : Byte) (r : Reg) : regOf id = .ok r ↔ id = idByte r := by
  constructor
  · intro h
    unfold regOf at h
    split at h
    · simp only [Except.ok.injEq] at h
      subst h
      apply BitVec.eq_of_toNat_eq
      simp only [idByte, BitVec.toNat_ofNat]
      omega
    · cases h
  · rintro rfl; simp

theorem regOf_error_iff (id : Byte) (f : Fault) : regOf id = .error f ↔ 16 ≤ id.toNat ∧ f = .invalidRegister := by
  unfold regOf
  split <;> simp [eq_comm] <;> omega

@[simp] theorem source_check_raw (src : Source Reg) : src.raw.check = .ok src := by
  cases src <;> simp [Source.raw, Source.check, Except.map]

@[simp] theorem target_check_raw (t : Target Reg) : t.raw.check = .ok t := by
  cases t <;> simp [Target.raw, Target.check, Except.map]

@[simp] theorem source_size_raw (src : Source Reg) : src.raw.size = src.size := by cases src <;> rfl

@[simp] theorem target_size_raw (t : Target Reg) : t.raw.size = t.size := by cases t <;> rfl

/-- A source passes its check exactly when it names registers. -/
theorem source_check_ok_iff (src : Source Byte) (o : Source Reg) : src.check = .ok o ↔ src = o.raw := by
  constructor
  · intro h
    cases src with
    | reg id =>
      cases hr : regOf id with
      | error f => simp [Source.check, hr, Except.map] at h
      | ok r =>
        simp only [Source.check, hr, Except.map, Except.ok.injEq] at h
        subst h
        simp [Source.raw, (regOf_ok_iff id r).1 hr]
    | lit v => simp only [Source.check, Except.ok.injEq] at h; subst h; rfl
    | addr a => simp only [Source.check, Except.ok.injEq] at h; subst h; rfl
    | ptr id =>
      cases hr : regOf id with
      | error f => simp [Source.check, hr, Except.map] at h
      | ok r =>
        simp only [Source.check, hr, Except.map, Except.ok.injEq] at h
        subst h
        simp [Source.raw, (regOf_ok_iff id r).1 hr]
  · rintro rfl; simp

theorem target_check_ok_iff (t : Target Byte) (o : Target Reg) : t.check = .ok o ↔ t = o.raw := by
  constructor
  · intro h
    cases t with
    | addr a => simp only [Target.check, Except.ok.injEq] at h; subst h; rfl
    | ptr id =>
      cases hr : regOf id with
      | error f => simp [Target.check, hr, Except.map] at h
      | ok r =>
        simp only [Target.check, hr, Except.map, Except.ok.injEq] at h
        subst h
        simp [Target.raw, (regOf_ok_iff id r).1 hr]
  · rintro rfl; simp

/-- A source fails its check only with `InvalidRegister`. -/
theorem source_check_error {src : Source Byte} {f : Fault} (h : src.check = .error f) : f = .invalidRegister := by
  cases src <;> simp only [Source.check, reduceCtorEq] at h
  all_goals
    rename_i id
    cases hr : regOf id with
    | ok r => simp [hr, Except.map] at h
    | error g =>
      simp only [hr, Except.map, Except.error.injEq] at h
      subst h; exact ((regOf_error_iff id g).1 hr).2

theorem target_check_error {t : Target Byte} {f : Fault} (h : t.check = .error f) : f = .invalidRegister := by
  cases t <;> simp only [Target.check, reduceCtorEq] at h
  rename_i id
  cases hr : regOf id with
  | ok r => simp [hr, Except.map] at h
  | error g =>
    simp only [hr, Except.map, Except.error.injEq] at h
    subst h; exact ((regOf_error_iff id g).1 hr).2

/-- A source value fails exactly when it is a memory form beyond `MEMSIZE`, and then with `MemoryBounds`. -/
theorem source_value_error_iff (s : State) (n : Nat) (o : Source Reg) (f : Fault) :
    o.value s n = .error f ↔
      f = .memoryBounds ∧ ∃ a, o.effectiveAddress s = some a ∧ s.memSize.val < a.toNat + n := by
  have key (a : Word) : s.memRead a n = .error f ↔ f = .memoryBounds ∧ s.memSize.val < a.toNat + n := by
    by_cases h : a.toNat + n ≤ s.memSize.val
    · rw [memRead_ok h]; simp [Nat.not_lt.2 h]
    · have h' := Nat.not_le.1 h
      rw [memRead_error h']; simp [h', eq_comm]
  cases o <;> simp [Source.value, Source.effectiveAddress, key]

/-! ### The shared phases -/

theorem checkDest_ok_iff (d : Reg) (u : Unit) : checkDest d = .ok u ↔ d ≠ .rpo := by
  unfold checkDest; split <;> simp_all

theorem checkDest_error_iff (d : Reg) (f : Fault) : checkDest d = .error f ↔ d = .rpo ∧ f = .illegalDestination := by
  unfold checkDest; split <;> simp_all [eq_comm]

/-- `destAndSource` on register operands: the destination check, then the source. -/
theorem destAndSource_raw (n : Nat) (d : Reg) (src : Source Reg) (s : State) :
    destAndSource n (idByte d) src.raw s =
      if d = .rpo then .error .illegalDestination else (src.value s n).map fun sv => (d, sv) := by
  simp only [destAndSource, regOf_idByte, source_check_raw, bind, Except.bind, checkDest]
  by_cases hd : d = .rpo
  · simp [hd]
  · simp only [hd, if_false]
    cases src.value s n <;> rfl

/-- All that `destAndSource` can answer. -/
theorem destAndSource_ok {n : Nat} {d : Byte} {src : Source Byte} {s : State} {r : Reg} {sv : Word}
    (h : destAndSource n d src s = .ok (r, sv)) :
    d = idByte r ∧ r ≠ .rpo ∧ ∃ o : Source Reg, src = o.raw ∧ o.value s n = .ok sv := by
  simp only [destAndSource, bind, Except.bind] at h
  cases hd : regOf d with
  | error f => simp [hd] at h
  | ok r' =>
    cases hs : src.check with
    | error f => simp [hd, hs] at h
    | ok o =>
      simp only [hd, hs, checkDest] at h
      split at h
      · cases h
      · rename_i hc
        split at hc
        · cases hc
        · cases hv : o.value s n with
          | error f => simp [hv] at h
          | ok v =>
            simp only [hv, pure, Except.pure, Except.ok.injEq, Prod.mk.injEq] at h
            obtain ⟨rfl, rfl⟩ := h
            exact ⟨(regOf_ok_iff _ _).1 hd, ‹_›, o, (source_check_ok_iff _ _).1 hs, hv⟩

/-- `dvrOperands` on register operands. -/
theorem dvrOperands_raw (d d2 : Reg) (src : Source Reg) (s : State) :
    dvrOperands (idByte d) (idByte d2) src.raw s =
      if d = .rpo ∨ d2 = .rpo then .error .illegalDestination
      else (src.value s 8).map fun sv => (d, d2, sv) := by
  simp only [dvrOperands, regOf_idByte, source_check_raw, bind, Except.bind, checkDest]
  by_cases h1 : d = .rpo
  · simp [h1]
  · by_cases h2 : d2 = .rpo
    · simp [h1, h2]
    · simp only [h1, h2, if_false, or_self]
      cases src.value s 8 <;> rfl

theorem dvrOperands_ok {d d2 : Byte} {src : Source Byte} {s : State} {r r2 : Reg} {sv : Word}
    (h : dvrOperands d d2 src s = .ok (r, r2, sv)) :
    d = idByte r ∧ d2 = idByte r2 ∧ r ≠ .rpo ∧ r2 ≠ .rpo ∧
      ∃ o : Source Reg, src = o.raw ∧ o.value s 8 = .ok sv := by
  cases hd : regOf d with
  | error f => simp [dvrOperands, bind, Except.bind, hd] at h
  | ok a =>
    cases hd2 : regOf d2 with
    | error f => simp [dvrOperands, bind, Except.bind, hd, hd2] at h
    | ok b =>
      cases hs : src.check with
      | error f => simp [dvrOperands, bind, Except.bind, hd, hd2, hs] at h
      | ok o =>
        obtain rfl := (regOf_ok_iff _ _).1 hd
        obtain rfl := (regOf_ok_iff _ _).1 hd2
        obtain rfl := (source_check_ok_iff _ _).1 hs
        rw [dvrOperands_raw] at h
        split at h
        · cases h
        · rename_i hn
          rw [not_or] at hn
          cases hv : o.value s 8 with
          | error f => simp [hv, Except.map] at h
          | ok v =>
            simp only [hv, Except.map, Except.ok.injEq, Prod.mk.injEq] at h
            obtain ⟨rfl, rfl, rfl⟩ := h
            exact ⟨rfl, rfl, hn.1, hn.2, o, rfl, hv⟩

theorem destOnly_raw (d : Reg) :
    destOnly (idByte d) = if d = .rpo then .error .illegalDestination else .ok d := by
  simp only [destOnly, regOf_idByte, bind, Except.bind, checkDest]
  by_cases hd : d = .rpo <;> simp [hd, pure, Except.pure]

theorem quotRem_zero (a : Word) : quotRem a 0 = .error .divideByZero := by simp [quotRem]

theorem quotRem_min : quotRem 0x8000000000000000 0xFFFFFFFFFFFFFFFF = .ok (0x8000000000000000, 0) := by decide

theorem quotRem_regular {a b : Word} (h : b ≠ 0) (hc : ¬(a = 0x8000000000000000 ∧ b = 0xFFFFFFFFFFFFFFFF)) :
    quotRem a b = .ok (BitVec.ofInt 64 (a.toInt.tdiv b.toInt), BitVec.ofInt 64 (a.toInt.tmod b.toInt)) := by
  rw [quotRem, if_neg h, if_neg hc]

/-- Division answers a fault only for a zero divisor. -/
theorem quotRem_error_iff (a b : Word) (f : Fault) : quotRem a b = .error f ↔ b = 0 ∧ f = .divideByZero := by
  by_cases h : b = 0
  · subst h; simp [quotRem, eq_comm]
  · by_cases hc : a = 0x8000000000000000 ∧ b = 0xFFFFFFFFFFFFFFFF
    · obtain ⟨rfl, rfl⟩ := hc
      rw [quotRem_min]
      exact ⟨fun e => (nomatch e), fun e => absurd e.1 h⟩
    · rw [quotRem_regular h hc]
      exact ⟨fun e => (nomatch e), fun e => absurd e.1 h⟩

/-! ### Every instruction is the operation of its mnemonic -/

@[simp] theorem shapeOf_instr (sh : Shape) : shapeOf sh.instr = sh := by
  match sh with
  | .jump c (.addr _) | .jump c (.ptr _) => cases c <;> rfl
  | .dest op d (.reg _) | .dest op d (.lit _) | .dest op d (.addr _) | .dest op d (.ptr _) => cases op <;> rfl
  | .dvr d d2 (.reg _) | .dvr d d2 (.lit _) | .dvr d d2 (.addr _) | .dvr d d2 (.ptr _) => rfl
  | .unary op d => cases op <;> rfl
  | .write op (.reg _) | .write op (.lit _) | .write op (.addr _) | .write op (.ptr _) => cases op <;> rfl
  | .hlt => rfl

@[simp] theorem instr_shapeOf (i : Instr) : (shapeOf i).instr = i := by cases i <;> rfl

/-- The operation of a jump condition. -/
def Cond.fn : Cond → State → Bool
  | .jlt => condLT
  | .jle => condLE
  | .jgt => condGT
  | .jge => condGE
  | .jsi => condSI
  | .jns => condNS
  | .jov => condOV
  | .jno => condNO

theorem cond_fn (c : Cond) (s : State) : c.fn s = c.holds s.flagS s.flagO s.flagZ := by cases c <;> rfl

/-- The operation of a mnemonic. -/
def runShape : Shape → State → Except Fault State
  | .jump c t, s => jump c.fn t s
  | .dest .div d src, s => divide d src s
  | .dest .rem d src, s => remainder d src s
  | .dest .shr d src, s => shiftRight d src s
  | .dest .mvb d src, s => move 8 d src s
  | .dest .mvw d src, s => move 16 d src s
  | .dest .mvd d src, s => move 32 d src s
  | .dvr d d2 src, s => divideRem d d2 src s
  | .unary .exb d, s => unary (sext 8) d s
  | .unary .exw d, s => unary (sext 16) d s
  | .unary .exd d, s => unary (sext 32) d s
  | .unary .neg d, s => unary negate d s
  | .write .wcn src, s => writeConsole 64 src s
  | .write .wcb src, s => writeConsole 8 src s
  | .write .wfn src, s => writeFile 64 src s
  | .write .wfb src, s => writeFile 8 src s
  | .hlt, s => .ok (s.commitPc (s.pc + 1) .halted)

/-- `exec` of any instruction, through its mnemonic: the one place where `exec` is unfolded. -/
theorem exec_shape (sh : Shape) (s : State) : exec sh.instr s = finish (runShape sh s) := by
  match sh with
  | .jump c (.addr _) | .jump c (.ptr _) => cases c <;> rfl
  | .dest op d (.reg _) | .dest op d (.lit _) | .dest op d (.addr _) | .dest op d (.ptr _) => cases op <;> rfl
  | .dvr d d2 (.reg _) | .dvr d d2 (.lit _) | .dvr d d2 (.addr _) | .dvr d d2 (.ptr _) => rfl
  | .unary op d => cases op <;> rfl
  | .write op (.reg _) | .write op (.lit _) | .write op (.addr _) | .write op (.ptr _) => cases op <;> rfl
  | .hlt => rfl

theorem exec_eq_run (i : Instr) (s : State) : exec i s = finish (runShape (shapeOf i) s) := by
  rw [← exec_shape, instr_shapeOf]

@[simp] theorem finish_eq_next (r : Except Fault State) (t : State) : finish r = .next t ↔ r = .ok t := by
  cases r <;> simp [finish, raise]

@[simp] theorem finish_eq_fault (r : Except Fault State) (f : Fault) : finish r = .fault f ↔ r = .error f := by
  cases r <;> simp [finish, raise]

theorem exec_next_iff (i : Instr) (s t : State) : exec i s = .next t ↔ runShape (shapeOf i) s = .ok t := by
  rw [exec_eq_run, finish_eq_next]

theorem exec_fault_iff (i : Instr) (s : State) (f : Fault) :
    exec i s = .fault f ↔ runShape (shapeOf i) s = .error f := by
  rw [exec_eq_run, finish_eq_fault]

/-- The encoded length, by mnemonic and operand (30_encoding.md R84). -/
theorem length_shape (sh : Shape) :
    sh.instr.length =
      match sh with
      | .jump _ t => 2 + t.size
      | .dest _ _ src => 3 + src.size
      | .dvr _ _ src => 4 + src.size
      | .unary _ _ => 3
      | .write _ src => 2 + src.size
      | .hlt => 1 := by
  match sh with
  | .jump c (.addr _) | .jump c (.ptr _) => cases c <;> rfl
  | .dest op d (.reg _) | .dest op d (.lit _) | .dest op d (.addr _) | .dest op d (.ptr _) => cases op <;> rfl
  | .dvr d d2 (.reg _) | .dvr d d2 (.lit _) | .dvr d d2 (.addr _) | .dvr d d2 (.ptr _) => rfl
  | .unary op d => cases op <;> rfl
  | .write op (.reg _) | .write op (.lit _) | .write op (.addr _) | .write op (.ptr _) => cases op <;> rfl
  | .hlt => rfl

/-! ### What each operation does on register operands -/

theorem jump_raw (cond : State → Bool) (t : Target Reg) (s : State) :
    jump cond t.raw s = .ok (if cond s then s.commitPc (t.offset s) .next else s.advance (2 + t.size)) := by
  simp [jump, bind, Except.bind, pure, Except.pure]

theorem divide_raw (d : Reg) (src : Source Reg) (s : State) (sv q m : Word) (hd : d ≠ .rpo)
    (hv : src.value s 8 = .ok sv) (hq : quotRem (s.getReg d) sv = .ok (q, m)) :
    divide (idByte d) src.raw s = .ok (((s.setReg d q).setZS q false false).advance (3 + src.size)) := by
  simp [divide, destAndSource_raw, bind, Except.bind, pure, Except.pure, hd, hv, hq, Except.map]

theorem remainder_raw (d : Reg) (src : Source Reg) (s : State) (sv q m : Word) (hd : d ≠ .rpo)
    (hv : src.value s 8 = .ok sv) (hq : quotRem (s.getReg d) sv = .ok (q, m)) :
    remainder (idByte d) src.raw s = .ok (((s.setReg d m).setZS m false false).advance (3 + src.size)) := by
  simp [remainder, destAndSource_raw, bind, Except.bind, pure, Except.pure, hd, hv, hq, Except.map]

theorem divideRem_raw (d d2 : Reg) (src : Source Reg) (s : State) (sv q m : Word) (hd : d ≠ .rpo) (hd2 : d2 ≠ .rpo)
    (hv : src.value s 8 = .ok sv) (hq : quotRem (s.getReg d) sv = .ok (q, m)) :
    divideRem (idByte d) (idByte d2) src.raw s =
      .ok ((((s.setReg d q).setReg d2 m).setZS q false false).advance (4 + src.size)) := by
  simp [divideRem, dvrOperands_raw, bind, Except.bind, pure, Except.pure, hd, hd2, hv, hq, Except.map]

theorem shiftRight_raw (d : Reg) (src : Source Reg) (s : State) (n : Word) (hd : d ≠ .rpo)
    (hv : src.value s 8 = .ok n) :
    shiftRight (idByte d) src.raw s =
      .ok (((s.setReg d (sar (s.getReg d) n)).setZS (sar (s.getReg d) n) (shrCarry (s.getReg d) n) false).advance
        (3 + src.size)) := by
  simp [shiftRight, destAndSource_raw, bind, Except.bind, pure, Except.pure, hd, hv, Except.map]

theorem move_raw (w : Nat) (d : Reg) (src : Source Reg) (s : State) (sv : Word) (hd : d ≠ .rpo)
    (hv : src.value s (w / 8) = .ok sv) :
    move w (idByte d) src.raw s = .ok ((s.setReg d (sext w sv)).advance (3 + src.size)) := by
  simp [move, destAndSource_raw, bind, Except.bind, pure, Except.pure, hd, hv, Except.map]

theorem unary_raw (f : Word → Word) (d : Reg) (s : State) (hd : d ≠ .rpo) :
    unary f (idByte d) s =
      .ok (((s.setReg d (f (s.getReg d))).setZS (f (s.getReg d)) false false).advance 3) := by
  simp [unary, destOnly_raw, bind, Except.bind, pure, Except.pure, hd]

theorem writeConsole_raw (w : Nat) (src : Source Reg) (s : State) (sv : Word)
    (hv : src.value s (w / 8) = .ok sv) :
    writeConsole w src.raw s =
      .ok ((s.consoleWrite (decSigned (signedLow w sv))).advance (2 + src.size)) := by
  simp [writeConsole, bind, Except.bind, pure, Except.pure, hv]

theorem writeFile_raw (w : Nat) (src : Source Reg) (s : State) (sv : Word) (ho : s.fileOpen = true)
    (hv : src.value s (w / 8) = .ok sv) :
    writeFile w src.raw s = .ok ((s.fileWrite (decSigned (signedLow w sv))).advance (2 + src.size)) := by
  simp [writeFile, checkFile, bind, Except.bind, pure, Except.pure, ho, hv]

/-! ### All that a completed instruction can have done -/

/-- `DIV`, `REM`, `SHR`: a register, its flags, the program counter. -/
theorem flagging_ok {op : DestOp} {d : Byte} {src : Source Byte} {s t : State}
    (hop : op = .div ∨ op = .rem ∨ op = .shr) (h : runShape (.dest op d src) s = .ok t) :
    ∃ (r : Reg) (o : Source Reg) (sv v : Word) (c : Bool),
      d = idByte r ∧ src = o.raw ∧ r ≠ .rpo ∧ o.value s 8 = .ok sv ∧ (c = true → op = .shr) ∧
      (op ≠ .shr → sv ≠ 0) ∧ t = ((s.setReg r v).setZS v c false).advance (3 + o.size) := by
  have hds : ∃ r sv, destAndSource 8 d src s = .ok (r, sv) := by
    cases hq : destAndSource 8 d src s with
    | ok p => exact ⟨p.1, p.2, rfl⟩
    | error f =>
      rcases hop with rfl | rfl | rfl <;>
        simp [runShape, divide, remainder, shiftRight, bind, Except.bind, hq] at h
  obtain ⟨r, sv, hds⟩ := hds
  obtain ⟨rfl, hr, o, rfl, hv⟩ := destAndSource_ok hds
  have hqr (hq : op ≠ .shr) : ∃ q m, quotRem (s.getReg r) sv = .ok (q, m) := by
    cases hq' : quotRem (s.getReg r) sv with
    | ok p => exact ⟨p.1, p.2, rfl⟩
    | error f =>
      rcases hop with rfl | rfl | rfl
      · simp [runShape, divide, bind, Except.bind, hds, hq'] at h
      · simp [runShape, remainder, bind, Except.bind, hds, hq'] at h
      · exact absurd rfl hq
  have hz (hq : op ≠ .shr) : sv ≠ 0 := by
    rintro rfl
    obtain ⟨q, m, e⟩ := hqr hq
    rw [quotRem_zero] at e
    cases e
  rcases hop with rfl | rfl | rfl
  · obtain ⟨q, m, e⟩ := hqr (by decide)
    rw [runShape, divide_raw _ _ _ _ _ _ hr hv e] at h
    exact ⟨r, o, sv, q, false, rfl, rfl, hr, hv, by simp, hz, by simpa using h.symm⟩
  · obtain ⟨q, m, e⟩ := hqr (by decide)
    rw [runShape, remainder_raw _ _ _ _ _ _ hr hv e] at h
    exact ⟨r, o, sv, m, false, rfl, rfl, hr, hv, by simp, hz, by simpa using h.symm⟩
  · rw [runShape, shiftRight_raw _ _ _ _ hr hv] at h
    exact ⟨r, o, sv, _, _, rfl, rfl, hr, hv, fun _ => rfl, fun e => absurd rfl e, by simpa using h.symm⟩

/-- `MVB`, `MVW`, `MVD`: a register and the program counter. -/
theorem move_ok {w : Nat} {d : Byte} {src : Source Byte} {s t : State} (h : move w d src s = .ok t) :
    ∃ (r : Reg) (o : Source Reg) (sv : Word),
      d = idByte r ∧ src = o.raw ∧ r ≠ .rpo ∧ o.value s (w / 8) = .ok sv ∧
      t = (s.setReg r (sext w sv)).advance (3 + o.size) := by
  cases hq : destAndSource (w / 8) d src s with
  | error f => simp [move, bind, Except.bind, hq] at h
  | ok p =>
    obtain ⟨r, sv⟩ := p
    obtain ⟨rfl, hr, o, rfl, hv⟩ := destAndSource_ok hq
    rw [move_raw _ _ _ _ _ hr hv] at h
    exact ⟨r, o, sv, rfl, rfl, hr, hv, by simpa using h.symm⟩

/-- `DVR`: two registers, the flags of the first, the program counter. -/
theorem divideRem_ok {d d2 : Byte} {src : Source Byte} {s t : State} (h : divideRem d d2 src s = .ok t) :
    ∃ (r r2 : Reg) (o : Source Reg) (sv q m : Word),
      d = idByte r ∧ d2 = idByte r2 ∧ src = o.raw ∧ r ≠ .rpo ∧ r2 ≠ .rpo ∧ o.value s 8 = .ok sv ∧ sv ≠ 0 ∧
      quotRem (s.getReg r) sv = .ok (q, m) ∧
      t = (((s.setReg r q).setReg r2 m).setZS q false false).advance (4 + o.size) := by
  cases hq : dvrOperands d d2 src s with
  | error f => simp [divideRem, bind, Except.bind, hq] at h
  | ok p =>
    obtain ⟨r, r2, sv⟩ := p
    obtain ⟨rfl, rfl, hr, hr2, o, rfl, hv⟩ := dvrOperands_ok hq
    cases hd : quotRem (s.getReg r) sv with
    | error f => simp [divideRem, bind, Except.bind, hq, hd] at h
    | ok p =>
      obtain ⟨q, m⟩ := p
      have hz : sv ≠ 0 := by
        rintro rfl
        rw [quotRem_zero] at hd
        cases hd
      rw [divideRem_raw _ _ _ _ _ _ _ hr hr2 hv hd] at h
      exact ⟨r, r2, o, sv, q, m, rfl, rfl, rfl, hr, hr2, hv, hz, hd, by simpa using h.symm⟩

/-- `EXB`, `EXW`, `EXD`, `NEG`: a register, its flags, the program counter. -/
theorem unary_ok {f : Word → Word} {d : Byte} {s t : State} (h : unary f d s = .ok t) :
    ∃ r : Reg, d = idByte r ∧ r ≠ .rpo ∧
      t = ((s.setReg r (f (s.getReg r))).setZS (f (s.getReg r)) false false).advance 3 := by
  cases hd : regOf d with
  | error g => simp [unary, destOnly, bind, Except.bind, hd] at h
  | ok r =>
    obtain rfl := (regOf_ok_iff _ _).1 hd
    by_cases hr : r = .rpo
    · simp [unary, destOnly_raw, bind, Except.bind, hr] at h
    · rw [unary_raw _ _ _ hr] at h
      exact ⟨r, rfl, hr, by simpa using h.symm⟩

/-- `WCN`, `WCB`: text on the console, the program counter. -/
theorem writeConsole_ok {w : Nat} {src : Source Byte} {s t : State} (h : writeConsole w src s = .ok t) :
    ∃ (o : Source Reg) (sv : Word), src = o.raw ∧ o.value s (w / 8) = .ok sv ∧
      t = (s.consoleWrite (decSigned (signedLow w sv))).advance (2 + o.size) := by
  cases hs : src.check with
  | error f => simp [writeConsole, bind, Except.bind, hs] at h
  | ok o =>
    obtain rfl := (source_check_ok_iff _ _).1 hs
    cases hv : o.value s (w / 8) with
    | error f => simp [writeConsole, bind, Except.bind, hv] at h
    | ok sv =>
      rw [writeConsole_raw _ _ _ _ hv] at h
      exact ⟨o, sv, rfl, hv, by simpa using h.symm⟩

/-- `WFN`, `WFB`: text on the open file, the program counter. -/
theorem writeFile_ok {w : Nat} {src : Source Byte} {s t : State} (h : writeFile w src s = .ok t) :
    ∃ (o : Source Reg) (sv : Word), src = o.raw ∧ s.fileOpen = true ∧ o.value s (w / 8) = .ok sv ∧
      t = (s.fileWrite (decSigned (signedLow w sv))).advance (2 + o.size) := by
  cases hs : src.check with
  | error f => simp [writeFile, bind, Except.bind, hs] at h
  | ok o =>
    obtain rfl := (source_check_ok_iff _ _).1 hs
    cases ho : s.fileOpen with
    | false => simp [writeFile, checkFile, bind, Except.bind, ho] at h
    | true =>
      cases hv : o.value s (w / 8) with
      | error f => simp [writeFile, checkFile, bind, Except.bind, ho, hv] at h
      | ok sv =>
        rw [writeFile_raw _ _ _ _ ho hv] at h
        exact ⟨o, sv, rfl, rfl, hv, by simpa using h.symm⟩

/-- A jump: the program counter. -/
theorem jump_ok {cond : State → Bool} {t : Target Byte} {s u : State} (h : jump cond t s = .ok u) :
    ∃ o : Target Reg, t = o.raw ∧
      u = if cond s then s.commitPc (o.offset s) .next else s.advance (2 + o.size) := by
  cases hs : t.check with
  | error f => simp [jump, bind, Except.bind, hs] at h
  | ok o =>
    obtain rfl := (target_check_ok_iff _ _).1 hs
    rw [jump_raw] at h
    exact ⟨o, rfl, by simpa using h.symm⟩

end Sys2Proof.Machine
end

