-- ==== Sys2Proof/Laws/Completion.lean ====
section
/-!
SUPPORT. Everything a completed instruction, and a completed step, can have done: one constructor per family.
-/

namespace Sys2Proof.Machine

/-- The next state of a completed instruction, by family. -/
inductive Completion (s : State) : Instr → State → Prop where
  | jump (c : Cond) (o : Target Reg) :
    Completion s (Shape.jump c o.raw).instr
      (if c.holds s.flagS s.flagO s.flagZ then s.commitPc (o.offset s) .next else s.advance (2 + o.size))
  | flagging (op : DestOp) (r : Reg) (o : Source Reg) (sv v : Word) (c : Bool)
      (hop : op = .div ∨ op = .rem ∨ op = .shr) (hr : r ≠ .rpo) (hv : o.value s 8 = .ok sv)
      (hc : c = true → op = .shr) (hz : op ≠ .shr → sv ≠ 0) :
    Completion s (Shape.dest op (idByte r) o.raw).instr (((s.setReg r v).setZS v c false).advance (3 + o.size))
  | move (op : DestOp) (w : Nat) (r : Reg) (o : Source Reg) (sv : Word)
      (hop : (op = .mvb ∧ w = 8) ∨ (op = .mvw ∧ w = 16) ∨ (op = .mvd ∧ w = 32)) (hr : r ≠ .rpo)
      (hv : o.value s (w / 8) = .ok sv) :
    Completion s (Shape.dest op (idByte r) o.raw).instr ((s.setReg r (sext w sv)).advance (3 + o.size))
  | dvr (r r2 : Reg) (o : Source Reg) (sv q m : Word) (hr : r ≠ .rpo) (hr2 : r2 ≠ .rpo)
      (hv : o.value s 8 = .ok sv) (hz : sv ≠ 0) (hq : quotRem (s.getReg r) sv = .ok (q, m)) :
    Completion s (Shape.dvr (idByte r) (idByte r2) o.raw).instr
      ((((s.setReg r q).setReg r2 m).setZS q false false).advance (4 + o.size))
  | unary (op : UnaryOp) (f : Word → Word) (r : Reg)
      (hop : (op = .exb ∧ f = sext 8) ∨ (op = .exw ∧ f = sext 16) ∨ (op = .exd ∧ f = sext 32) ∨
        (op = .neg ∧ f = negate)) (hr : r ≠ .rpo) :
    Completion s (Shape.unary op (idByte r)).instr
      (((s.setReg r (f (s.getReg r))).setZS (f (s.getReg r)) false false).advance 3)
  | console (op : WriteOp) (w : Nat) (o : Source Reg) (sv : Word) (hop : (op = .wcn ∧ w = 64) ∨ (op = .wcb ∧ w = 8))
      (hv : o.value s (w / 8) = .ok sv) :
    Completion s (Shape.write op o.raw).instr
      ((s.consoleWrite (decSigned (signedLow w sv))).advance (2 + o.size))
  | file (op : WriteOp) (w : Nat) (o : Source Reg) (sv : Word) (hop : (op = .wfn ∧ w = 64) ∨ (op = .wfb ∧ w = 8))
      (hopen : s.fileOpen = true) (hv : o.value s (w / 8) = .ok sv) :
    Completion s (Shape.write op o.raw).instr
      ((s.fileWrite (decSigned (signedLow w sv))).advance (2 + o.size))
  | hlt : Completion s .hlt (s.commitPc (s.pc + 1) .halted)

/-- An instruction that completes does what its family does. -/
theorem exec_completion {i : Instr} {s t : State} (h : exec i s = .next t) : Completion s i t := by
  rw [exec_next_iff] at h
  rw [← instr_shapeOf i]
  generalize shapeOf i = sh at h
  match sh, h with
  | .jump c tt, h =>
    obtain ⟨o, rfl, rfl⟩ := jump_ok h
    rw [cond_fn]
    exact .jump c o
  | .dest .div d src, h =>
    obtain ⟨r, o, sv, v, c, rfl, rfl, hr, hv, hc, hz, rfl⟩ := flagging_ok (by simp) h
    exact .flagging _ r o sv v c (by simp) hr hv hc hz
  | .dest .rem d src, h =>
    obtain ⟨r, o, sv, v, c, rfl, rfl, hr, hv, hc, hz, rfl⟩ := flagging_ok (by simp) h
    exact .flagging _ r o sv v c (by simp) hr hv hc hz
  | .dest .shr d src, h =>
    obtain ⟨r, o, sv, v, c, rfl, rfl, hr, hv, hc, hz, rfl⟩ := flagging_ok (by simp) h
    exact .flagging _ r o sv v c (by simp) hr hv hc hz
  | .dest .mvb d src, h =>
    obtain ⟨r, o, sv, rfl, rfl, hr, hv, rfl⟩ := move_ok h
    exact .move _ 8 r o sv (by simp) hr hv
  | .dest .mvw d src, h =>
    obtain ⟨r, o, sv, rfl, rfl, hr, hv, rfl⟩ := move_ok h
    exact .move _ 16 r o sv (by simp) hr hv
  | .dest .mvd d src, h =>
    obtain ⟨r, o, sv, rfl, rfl, hr, hv, rfl⟩ := move_ok h
    exact .move _ 32 r o sv (by simp) hr hv
  | .dvr d d2 src, h =>
    obtain ⟨r, r2, o, sv, q, m, rfl, rfl, rfl, hr, hr2, hv, hz, hq, rfl⟩ := divideRem_ok h
    exact .dvr r r2 o sv q m hr hr2 hv hz hq
  | .unary .exb d, h =>
    obtain ⟨r, rfl, hr, rfl⟩ := unary_ok h
    exact .unary _ (sext 8) r (by simp) hr
  | .unary .exw d, h =>
    obtain ⟨r, rfl, hr, rfl⟩ := unary_ok h
    exact .unary _ (sext 16) r (by simp) hr
  | .unary .exd d, h =>
    obtain ⟨r, rfl, hr, rfl⟩ := unary_ok h
    exact .unary _ (sext 32) r (by simp) hr
  | .unary .neg d, h =>
    obtain ⟨r, rfl, hr, rfl⟩ := unary_ok h
    exact .unary _ negate r (by simp) hr
  | .write .wcn src, h =>
    obtain ⟨o, sv, rfl, hv, rfl⟩ := writeConsole_ok h
    exact .console _ 64 o sv (by simp) hv
  | .write .wcb src, h =>
    obtain ⟨o, sv, rfl, hv, rfl⟩ := writeConsole_ok h
    exact .console _ 8 o sv (by simp) hv
  | .write .wfn src, h =>
    obtain ⟨o, sv, rfl, ho, hv, rfl⟩ := writeFile_ok h
    exact .file _ 64 o sv (by simp) ho hv
  | .write .wfb src, h =>
    obtain ⟨o, sv, rfl, ho, hv, rfl⟩ := writeFile_ok h
    exact .file _ 8 o sv (by simp) ho hv
  | .hlt, h =>
    simp only [runShape, Except.ok.injEq] at h
    subst h
    exact .hlt

/-! ### The step around it -/

theorem step_of_decode {s : State} {i : Instr} {rest : List Byte} (h : decode s.fetchBytes = .ok (i, rest)) :
    step s = exec i s := by
  simp [step, State.fetch, h]

/-- A completed step is a completed instruction. -/
theorem step_next {s t : State} (h : step s = .next t) :
    ∃ i rest, decode s.fetchBytes = .ok (i, rest) ∧ exec i s = .next t := by
  unfold step State.fetch at h
  cases hd : decode s.fetchBytes with
  | error r => rw [hd] at h; cases h
  | ok p => rw [hd] at h; exact ⟨p.1, p.2, rfl, h⟩

theorem encode_length (i : Instr) : (encode i).length = i.length := by cases i <;> rfl

/-! ### The decoder on its first bytes -/

theorem decode_other {b : Byte} (bs : List Byte) (h0 : b ≠ 0x00) (h1 : b ≠ 0xFF) :
    decode (b :: bs) = .error .invalidOpcode := by
  show (if b = 0xFF then _ else if b = 0x00 then _ else _) = _
  rw [if_neg h1, if_neg h0]

theorem decode_extended_none {b : Byte} (ops : List Byte) (h : lookupRow opcodeTable b = none) :
    decode (0xFF :: b :: ops) = .error .invalidOpcode := by
  simp [decode, h]

theorem decode_extended_short {b : Byte} {ops : List Byte} {l : Layout} (h : lookupRow opcodeTable b = some l)
    (hp : l.parse ops = none) : decode (0xFF :: b :: ops) = .error .truncated := by
  simp [decode, h, hp]

end Sys2Proof.Machine
end

