-- ==== Sys2Proof/Laws/Faults.lean ====
section
/-!
SUPPORT. Which fault an instruction raises, and when it completes: everything `exec` can answer, in the order of the phases
(40_fetch_decode_operands.md R110).
-/

namespace Sys2Proof.Machine

/-- The register ids a source names. -/
def Source.ids : Source Byte → List Byte
  | .reg r => [r]
  | .ptr r => [r]
  | .lit _ | .addr _ => []

/-- The register ids a target names. -/
def Target.ids : Target Byte → List Byte
  | .ptr r => [r]
  | .addr _ => []

/-- The register ids of an instruction, by mnemonic and operands. -/
theorem regIds_shape (sh : Shape) :
    sh.instr.regIds =
      match sh with
      | .jump _ t => t.ids
      | .dest _ d src => d :: src.ids
      | .dvr d d2 src => d :: d2 :: src.ids
      | .unary _ d => [d]
      | .write _ src => src.ids
      | .hlt => [] := by
  match sh with
  | .jump c (.addr _) | .jump c (.ptr _) => cases c <;> rfl
  | .dest op d (.reg _) | .dest op d (.lit _) | .dest op d (.addr _) | .dest op d (.ptr _) => cases op <;> rfl
  | .dvr d d2 (.reg _) | .dvr d d2 (.lit _) | .dvr d d2 (.addr _) | .dvr d d2 (.ptr _) => rfl
  | .unary op d => cases op <;> rfl
  | .write op (.reg _) | .write op (.lit _) | .write op (.addr _) | .write op (.ptr _) => cases op <;> rfl
  | .hlt => rfl

theorem wellFormed_iff (i : Instr) : i.WellFormed = true ↔ ∀ b ∈ i.regIds, b.toNat < 16 := by
  simp [Instr.WellFormed]

theorem byte_good (b : Byte) (h : b.toNat < 16) : ∃ r, b = idByte r := ⟨⟨b.toNat, h⟩, by simp [idByte]⟩

theorem source_check_bad (src : Source Byte) (h : ∃ b ∈ src.ids, 16 ≤ b.toNat) :
    src.check = .error .invalidRegister := by
  cases src <;> simp [Source.ids] at h <;> simp [Source.check, (regOf_error_iff _ _).2 ⟨h, rfl⟩, Except.map]

theorem source_good (src : Source Byte) (h : ∀ b ∈ src.ids, b.toNat < 16) : ∃ o : Source Reg, src = o.raw := by
  cases src with
  | reg b => obtain ⟨r, rfl⟩ := byte_good b (h _ (by simp [Source.ids])); exact ⟨.reg r, rfl⟩
  | ptr b => obtain ⟨r, rfl⟩ := byte_good b (h _ (by simp [Source.ids])); exact ⟨.ptr r, rfl⟩
  | lit v => exact ⟨.lit v, rfl⟩
  | addr v => exact ⟨.addr v, rfl⟩

theorem target_check_bad (t : Target Byte) (h : ∃ b ∈ t.ids, 16 ≤ b.toNat) :
    t.check = .error .invalidRegister := by
  cases t with
  | addr a => simp [Target.ids] at h
  | ptr b => simp [Target.ids] at h; simp [Target.check, (regOf_error_iff _ _).2 ⟨h, rfl⟩, Except.map]

theorem target_good (t : Target Byte) (h : ∀ b ∈ t.ids, b.toNat < 16) : ∃ o : Target Reg, t = o.raw := by
  cases t with
  | ptr b => exact ⟨.ptr ⟨b.toNat, h _ (by simp [Target.ids])⟩, by simp [Target.raw, idByte]⟩
  | addr v => exact ⟨.addr v, rfl⟩

/-- An instruction with a register id of `0x10` or more raises `InvalidRegister`, whatever else is wrong with it. -/
theorem exec_ill_formed (i : Instr) (s : State) (h : ¬ i.WellFormed = true) :
    exec i s = .fault .invalidRegister := by
  rw [wellFormed_iff] at h
  push Not at h
  rw [exec_fault_iff]
  rw [← instr_shapeOf i, regIds_shape] at h
  generalize shapeOf i = sh at h ⊢
  have das : ∀ n d src, (∃ b ∈ d :: Source.ids src, 16 ≤ b.toNat) →
      destAndSource n d src s = .error .invalidRegister := by
    intro n d src hb
    by_cases hd : 16 ≤ d.toNat
    · simp [destAndSource, bind, Except.bind, (regOf_error_iff _ _).2 ⟨hd, rfl⟩]
    · obtain ⟨r, rfl⟩ := byte_good d (by omega)
      have : ∃ b ∈ Source.ids src, 16 ≤ b.toNat := by
        obtain ⟨b, hm, hb⟩ := hb
        rcases List.mem_cons.1 hm with rfl | hm
        · omega
        · exact ⟨b, hm, hb⟩
      simp [destAndSource, bind, Except.bind, source_check_bad _ this]
  match sh, h with
  | .jump c t, h => simp [runShape, jump, target_check_bad t h, bind, Except.bind]
  | .dest op d src, h =>
    cases op <;> simp [runShape, divide, remainder, shiftRight, move, das _ _ _ h, bind, Except.bind]
  | .dvr d d2 src, h =>
    simp only [runShape, divideRem, dvrOperands, bind, Except.bind]
    by_cases hd : 16 ≤ d.toNat
    · simp [(regOf_error_iff _ _).2 ⟨hd, rfl⟩]
    · obtain ⟨r, rfl⟩ := byte_good d (by omega)
      by_cases hd2 : 16 ≤ d2.toNat
      · simp [(regOf_error_iff _ _).2 ⟨hd2, rfl⟩]
      · obtain ⟨r2, rfl⟩ := byte_good d2 (by omega)
        have : ∃ b ∈ Source.ids src, 16 ≤ b.toNat := by
          obtain ⟨b, hm, hb⟩ := h
          rcases List.mem_cons.1 hm with rfl | hm
          · omega
          rcases List.mem_cons.1 hm with rfl | hm
          · omega
          · exact ⟨b, hm, hb⟩
        simp [source_check_bad _ this]
  | .unary op d, h =>
    simp at h
    cases op <;> simp [runShape, unary, destOnly, (regOf_error_iff _ _).2 ⟨h, rfl⟩, bind, Except.bind]
  | .write op src, h =>
    cases op <;> simp [runShape, writeConsole, writeFile, source_check_bad _ h, bind, Except.bind]
  | .hlt, h => simp at h

/-- A memory form whose `n` bytes do not all lie in memory. -/
def BeyondMemory (s : State) (o : Source Reg) (n : Nat) : Prop :=
  ∃ a, o.effectiveAddress s = some a ∧ s.memSize.val < a.toNat + n

theorem source_value_cases (s : State) (o : Source Reg) (n : Nat) :
    (BeyondMemory s o n ∧ o.value s n = .error .memoryBounds) ∨
      (¬ BeyondMemory s o n ∧ ∃ v, o.value s n = .ok v) := by
  cases h : o.value s n with
  | error f => obtain ⟨rfl, h2⟩ := (source_value_error_iff ..).1 h; exact .inl ⟨h2, rfl⟩
  | ok v =>
    refine .inr ⟨fun hm => ?_, v, rfl⟩
    have := (source_value_error_iff s n o .memoryBounds).2 ⟨rfl, hm⟩
    rw [h] at this; cases this

theorem idByte_inj {a b : Reg} (h : idByte a = idByte b) : a = b := by
  have := congrArg regOf h; simpa using this

theorem zero_eq_idByte {r : Reg} : 0#8 = idByte r ↔ r = .rpo := by
  constructor
  · intro h; exact (idByte_inj (a := .rpo) h).symm
  · rintro rfl; rfl

theorem quotRem_zero' (a : Word) : quotRem a 0#64 = .error .divideByZero := quotRem_zero a

theorem sourceOutOfBounds_dest (op d) (o : Source Reg) (s) :
    sourceOutOfBounds (Shape.dest op d o.raw).instr s ↔ BeyondMemory s o op.bytes := by
  simp only [sourceOutOfBounds, sourceOf, shapeOf_instr, BeyondMemory, Option.some.injEq, Prod.mk.injEq]
  constructor
  · rintro ⟨_, _, o', a, ⟨rfl, rfl⟩, h, h1, h2⟩; rw [source_check_raw] at h; cases h; exact ⟨a, h1, h2⟩
  · rintro ⟨a, h1, h2⟩; exact ⟨_, _, o, a, ⟨rfl, rfl⟩, source_check_raw o, h1, h2⟩

theorem sourceOutOfBounds_dvr (d d2) (o : Source Reg) (s) :
    sourceOutOfBounds (Shape.dvr d d2 o.raw).instr s ↔ BeyondMemory s o 8 := by
  simp only [sourceOutOfBounds, sourceOf, shapeOf_instr, BeyondMemory, Option.some.injEq, Prod.mk.injEq]
  constructor
  · rintro ⟨_, _, o', a, ⟨rfl, rfl⟩, h, h1, h2⟩; rw [source_check_raw] at h; cases h; exact ⟨a, h1, h2⟩
  · rintro ⟨a, h1, h2⟩; exact ⟨_, _, o, a, ⟨rfl, rfl⟩, source_check_raw o, h1, h2⟩

theorem sourceOutOfBounds_write (op) (o : Source Reg) (s) : sourceOutOfBounds (Shape.write op o.raw).instr s ↔ BeyondMemory s o op.bytes := by
  simp only [sourceOutOfBounds, sourceOf, shapeOf_instr, BeyondMemory, Option.some.injEq, Prod.mk.injEq]
  constructor
  · rintro ⟨_, _, o', a, ⟨rfl, rfl⟩, h, h1, h2⟩; rw [source_check_raw] at h; cases h; exact ⟨a, h1, h2⟩
  · rintro ⟨a, h1, h2⟩; exact ⟨_, _, o, a, ⟨rfl, rfl⟩, source_check_raw o, h1, h2⟩

theorem divisorIsZero_dest (op d) (o : Source Reg) (s) :
    divisorIsZero (Shape.dest op d o.raw).instr s ↔ (op = .div ∨ op = .rem) ∧ o.value s op.bytes = .ok 0 := by
  simp only [divisorIsZero, sourceOf, shapeOf_instr, isDivision, Option.some.injEq, Prod.mk.injEq]
  constructor
  · rintro ⟨h0, _, _, o', ⟨rfl, rfl⟩, h, h1⟩; rw [source_check_raw] at h; cases h; exact ⟨by cases op <;> simp at h0 ⊢, h1⟩
  · rintro ⟨h0, h1⟩; exact ⟨by cases op <;> simp at h0 ⊢, _, _, o, ⟨rfl, rfl⟩, source_check_raw o, h1⟩

theorem divisorIsZero_dvr (d d2) (o : Source Reg) (s) : divisorIsZero (Shape.dvr d d2 o.raw).instr s ↔ o.value s 8 = .ok 0 := by
  simp only [divisorIsZero, sourceOf, shapeOf_instr, isDivision, Option.some.injEq, Prod.mk.injEq]
  constructor
  · rintro ⟨h0, _, _, o', ⟨rfl, rfl⟩, h, h1⟩; rw [source_check_raw] at h; cases h; exact h1
  · rintro h1; exact ⟨by trivial, _, _, o, ⟨rfl, rfl⟩, source_check_raw o, h1⟩

theorem not_divisorIsZero_write (op) (o : Source Reg) (s) : ¬ divisorIsZero (Shape.write op o.raw).instr s := by
  simp [divisorIsZero, isDivision]

theorem quotRem_ok (a : Word) {v : Word} (h : v ≠ 0) : ∃ q m, quotRem a v = .ok (q, m) := by
  cases hqq : quotRem a v with
  | error f => exact absurd ((quotRem_error_iff ..).1 hqq).1 h
  | ok p => exact ⟨_, _, rfl⟩

/-- What an instruction on registers answers: the first fault condition that applies, in the order of the phases, or a next
state. -/
theorem exec_well_formed (i : Instr) (s : State) (h : i.WellFormed = true) :
    if (0x00 : Byte) ∈ destIds i then exec i s = .fault .illegalDestination
    else if isFileWrite i = true ∧ s.fileOpen = false then exec i s = .fault .fileOperation
    else (sourceOutOfBounds i s ∧ ¬ divisorIsZero i s ∧ exec i s = .fault .memoryBounds) ∨
      (¬ sourceOutOfBounds i s ∧ divisorIsZero i s ∧ exec i s = .fault .divideByZero) ∨
      (¬ sourceOutOfBounds i s ∧ ¬ divisorIsZero i s ∧ ∃ t, exec i s = .next t) := by
  rw [wellFormed_iff] at h
  rw [← instr_shapeOf i, regIds_shape] at h
  rw [← instr_shapeOf i]
  generalize shapeOf i = sh at h ⊢
  simp only [exec_fault_iff, exec_next_iff, destIds, isFileWrite, shapeOf_instr]
  match sh, h with
  | .jump c t, h =>
    obtain ⟨o, rfl⟩ := target_good t h
    simp [runShape, jump_raw, sourceOutOfBounds, divisorIsZero, sourceOf]
  | .dest op d src, h =>
    obtain ⟨r, rfl⟩ := byte_good d (h _ (by simp))
    obtain ⟨o, rfl⟩ := source_good src (fun b hb => h b (by simp [hb]))
    rw [sourceOutOfBounds_dest, divisorIsZero_dest]
    by_cases hr : r = .rpo
    · subst hr
      have : (0#8 : Byte) ∈ [idByte .rpo] := by decide
      simp [this]
      cases op <;> simp [runShape, divide, remainder, shiftRight, move, destAndSource_raw, bind, Except.bind]
    · have hd : (0x00 : Byte) ∉ [idByte r] := by rw [List.mem_singleton]; exact fun h => hr (zero_eq_idByte.1 h)
      rw [if_neg hd]; simp only [if_false, Bool.false_eq_true, false_and]
      rcases source_value_cases s o op.bytes with ⟨hm, hv⟩ | ⟨hm, v, hv⟩
      · cases op <;> simp [DestOp.bytes] at hv hm ⊢ <;> simp [hm, hv, runShape, divide, remainder, shiftRight, move, destAndSource_raw, bind, Except.bind, hr, Except.map]
      · by_cases hz : v = 0
        · subst hz
          cases op <;> simp [DestOp.bytes] at hv hm ⊢ <;> simp [hm, hv, runShape, divide, remainder, shiftRight, move, destAndSource_raw, bind, Except.bind, hr, Except.map, pure, Except.pure, quotRem_zero']
        · obtain ⟨q, m, hq⟩ := quotRem_ok (s.getReg r) hz
          cases op <;> simp [DestOp.bytes] at hv hm hz ⊢ <;> simp [hm, hv, hz, hq, runShape, divide, remainder, shiftRight, move, destAndSource_raw, bind, Except.bind, hr, Except.map, pure, Except.pure]
  | .dvr d d2 src, h =>
    obtain ⟨r, rfl⟩ := byte_good d (h _ (by simp))
    obtain ⟨r2, rfl⟩ := byte_good d2 (h _ (by simp))
    obtain ⟨o, rfl⟩ := source_good src (fun b hb => h b (by simp [hb]))
    rw [sourceOutOfBounds_dvr, divisorIsZero_dvr]
    by_cases hr : r = .rpo ∨ r2 = .rpo
    · have : (0x00 : Byte) ∈ [idByte r, idByte r2] := by rcases hr with rfl | rfl <;> simp [zero_eq_idByte]
      rw [if_pos this]
      simp [runShape, divideRem, dvrOperands_raw, bind, Except.bind, hr]
    · have hd : (0x00 : Byte) ∉ [idByte r, idByte r2] := by rw [not_or] at hr; simp [zero_eq_idByte, hr]
      rw [if_neg hd]; simp only [if_false, Bool.false_eq_true, false_and]
      rcases source_value_cases s o 8 with ⟨hm, hv⟩ | ⟨hm, v, hv⟩
      · simp [hm, hv, runShape, divideRem, dvrOperands_raw, bind, Except.bind, hr, Except.map]
      · by_cases hz : v = 0
        · subst hz
          simp [hm, runShape, divideRem, dvrOperands_raw, bind, Except.bind, hr, hv, Except.map, quotRem_zero']
        · obtain ⟨q, m, hq⟩ := quotRem_ok (s.getReg r) hz
          simp at hz
          simp [hm, hz, hq, runShape, divideRem, dvrOperands_raw, bind, Except.bind, hr, hv, Except.map, pure, Except.pure]
  | .unary op d, h =>
    obtain ⟨r, rfl⟩ := byte_good d (h _ (by simp))
    by_cases hr : r = .rpo
    · subst hr
      have : (0#8 : Byte) ∈ [idByte .rpo] := by decide
      simp [this]
      cases op <;> simp [runShape, unary, destOnly_raw, bind, Except.bind]
    · have hd : (0x00 : Byte) ∉ [idByte r] := by rw [List.mem_singleton]; exact fun h => hr (zero_eq_idByte.1 h)
      rw [if_neg hd]; simp only [if_false, Bool.false_eq_true, false_and]
      cases op <;> simp [runShape, unary_raw _ _ _ hr, sourceOutOfBounds, divisorIsZero, sourceOf, isDivision]
  | .write op src, h =>
    obtain ⟨o, rfl⟩ := source_good src h
    rw [sourceOutOfBounds_write]
    simp only [not_divisorIsZero_write, not_false_eq_true, true_and, List.not_mem_nil, if_false, false_and, and_false, false_or]
    by_cases hf : op.toFile = true ∧ s.fileOpen = false
    · simp only [hf, and_self, if_true]
      obtain ⟨h1, h2⟩ := hf
      cases op <;> simp [WriteOp.toFile] at h1 <;> simp [runShape, writeFile, checkFile, bind, Except.bind, h2]
    · simp only [hf, if_false]
      rcases source_value_cases s o op.bytes with ⟨hm, hv⟩ | ⟨hm, v, hv⟩
      · cases op <;> simp [WriteOp.bytes, WriteOp.toFile] at hf hm hv ⊢ <;> simp [runShape, writeFile, writeConsole, checkFile, bind, Except.bind, hm, hv, hf]
      · cases op <;> simp [WriteOp.bytes, WriteOp.toFile] at hf hm hv ⊢ <;> simp [runShape, writeFile, writeConsole, checkFile, bind, Except.bind, hm, hv, hf, pure, Except.pure]
  | .hlt, h => simp [runShape, sourceOutOfBounds, divisorIsZero, sourceOf]

end Sys2Proof.Machine
end

