-- ==== Sys2Proof/Tests/Slice0.lean ====
section
/-!
SUPPORT. The model's own tests: decoding words written out from 30_encoding.md R88, the check of well-formedness, one step
of each mnemonic with values of 95_test_vectors.md and of the rules' worked examples, and a witness for each statement with
hypotheses.
-/

namespace Sys2Proof.Tests

open Sys2Proof.Machine

/-- A constructed machine of `size` bytes with the registers and cells given and `bytes` at the program counter. -/
def start (bytes : List Byte) (pc : Word := 0) (regs : List (Reg × Word) := []) (cells : List Host.Cell := [])
    (size : MemSize := 64) (fileOpen : Bool := false) : State :=
  let s := regs.foldl (fun (s : State) (r : Reg × Word) => s.setReg r.1 r.2) (State.construct size)
  let s := { s with
    mem := cells.foldl (fun (m : Memory) (c : Host.Cell) => m.writeByte c.1 c.2) s.mem, fileOpen := fileOpen }
  (s.setReg .rpo pc).placeAtPc bytes

/-- What `f` reads in the state after one completed step. -/
def after {α : Type} (s : State) (f : State → α) : Option α :=
  match step s with
  | .next t => some (f t)
  | .fault _ => none
  | .refused _ => none

/-- The fault of one step. -/
def faultOf (s : State) : Option Fault :=
  match step s with
  | .next _ => none
  | .fault f => some f
  | .refused _ => none

/-! ### Well-formedness: one ill-formed term for each operand that names a register -/

theorem test_ill_formed_refused :
    Instr.WellFormed (.divR 0x10 0x06) = false ∧ Instr.WellFormed (.divR 0x06 0x10) = false ∧
      Instr.WellFormed (.divP 0x06 0xFF) = false ∧ Instr.WellFormed (.shrL 0x80 1) = false ∧
      Instr.WellFormed (.mvwA 0x10 0) = false ∧ Instr.WellFormed (.dvrR 0x10 0x06 0x07) = false ∧
      Instr.WellFormed (.dvrR 0x06 0x10 0x07) = false ∧ Instr.WellFormed (.dvrP 0x06 0x07 0x10) = false ∧
      Instr.WellFormed (.dvrL 0x06 0x10 0) = false ∧ Instr.WellFormed (.jltP 0x10) = false ∧
      Instr.WellFormed (.wcnR 0x10) = false ∧ Instr.WellFormed (.wfbP 0x10) = false ∧
      Instr.WellFormed (.exb 0x10) = false ∧ Instr.WellFormed (.neg 0x10) = false := by
  decide

theorem test_well_formed_accepted :
    Instr.WellFormed (.dvrR 0x00 0x0F 0x0F) = true ∧ Instr.WellFormed (.jltP 0x0F) = true ∧
      Instr.WellFormed (.jltA 0xFFFFFFFFFFFFFFFF) = true ∧ Instr.WellFormed .hlt = true := by
  decide

/-! ### Decoding: every row of R88, words written out from its encoding -/

theorem test_decode_jumps :
    decode [0xFF, 0x00, 0xEF, 0xCD, 0xAB, 0x90, 0x78, 0x56, 0x34, 0x12] = .ok (.jltA 0x1234567890ABCDEF, []) ∧
    decode [0xFF, 0x01, 0x06] = .ok (.jltP 0x06, []) ∧
    decode [0xFF, 0x02, 0xEF, 0xCD, 0xAB, 0x90, 0x78, 0x56, 0x34, 0x12] = .ok (.jleA 0x1234567890ABCDEF, []) ∧
    decode [0xFF, 0x03, 0x06] = .ok (.jleP 0x06, []) ∧
    decode [0xFF, 0x04, 0xEF, 0xCD, 0xAB, 0x90, 0x78, 0x56, 0x34, 0x12] = .ok (.jgtA 0x1234567890ABCDEF, []) ∧
    decode [0xFF, 0x05, 0x06] = .ok (.jgtP 0x06, []) ∧
    decode [0xFF, 0x06, 0xEF, 0xCD, 0xAB, 0x90, 0x78, 0x56, 0x34, 0x12] = .ok (.jgeA 0x1234567890ABCDEF, []) ∧
    decode [0xFF, 0x07, 0x06] = .ok (.jgeP 0x06, []) := by
  decide

theorem test_decode_flag_jumps :
    decode [0xFF, 0x08, 0xEF, 0xCD, 0xAB, 0x90, 0x78, 0x56, 0x34, 0x12] = .ok (.jsiA 0x1234567890ABCDEF, []) ∧
    decode [0xFF, 0x09, 0x06] = .ok (.jsiP 0x06, []) ∧
    decode [0xFF, 0x0A, 0xEF, 0xCD, 0xAB, 0x90, 0x78, 0x56, 0x34, 0x12] = .ok (.jnsA 0x1234567890ABCDEF, []) ∧
    decode [0xFF, 0x0B, 0x06] = .ok (.jnsP 0x06, []) ∧
    decode [0xFF, 0x0C, 0xEF, 0xCD, 0xAB, 0x90, 0x78, 0x56, 0x34, 0x12] = .ok (.jovA 0x1234567890ABCDEF, []) ∧
    decode [0xFF, 0x0D, 0x06] = .ok (.jovP 0x06, []) ∧
    decode [0xFF, 0x0E, 0xEF, 0xCD, 0xAB, 0x90, 0x78, 0x56, 0x34, 0x12] = .ok (.jnoA 0x1234567890ABCDEF, []) ∧
    decode [0xFF, 0x0F, 0x06] = .ok (.jnoP 0x06, []) := by
  decide

theorem test_decode_div :
    decode [0xFF, 0x10, 0x06, 0x07] = .ok (.divR 0x06 0x07, []) ∧
    decode [0xFF, 0x11, 0x06, 0xEF, 0xCD, 0xAB, 0x90, 0x78, 0x56, 0x34, 0x12] = .ok (.divL 0x06 0x1234567890ABCDEF, []) ∧
    decode [0xFF, 0x12, 0x06, 0xEF, 0xCD, 0xAB, 0x90, 0x78, 0x56, 0x34, 0x12] = .ok (.divA 0x06 0x1234567890ABCDEF, []) ∧
    decode [0xFF, 0x13, 0x06, 0x07] = .ok (.divP 0x06 0x07, []) := by
  decide

theorem test_decode_dvr :
    decode [0xFF, 0x14, 0x06, 0x07, 0x08] = .ok (.dvrR 0x06 0x07 0x08, []) ∧
    decode [0xFF, 0x15, 0x06, 0x07, 0xEF, 0xCD, 0xAB, 0x90, 0x78, 0x56, 0x34, 0x12] = .ok (.dvrL 0x06 0x07 0x1234567890ABCDEF, []) ∧
    decode [0xFF, 0x16, 0x06, 0x07, 0xEF, 0xCD, 0xAB, 0x90, 0x78, 0x56, 0x34, 0x12] = .ok (.dvrA 0x06 0x07 0x1234567890ABCDEF, []) ∧
    decode [0xFF, 0x17, 0x06, 0x07, 0x08] = .ok (.dvrP 0x06 0x07 0x08, []) := by
  decide

theorem test_decode_rem :
    decode [0xFF, 0x18, 0x06, 0x07] = .ok (.remR 0x06 0x07, []) ∧
    decode [0xFF, 0x19, 0x06, 0xEF, 0xCD, 0xAB, 0x90, 0x78, 0x56, 0x34, 0x12] = .ok (.remL 0x06 0x1234567890ABCDEF, []) ∧
    decode [0xFF, 0x1A, 0x06, 0xEF, 0xCD, 0xAB, 0x90, 0x78, 0x56, 0x34, 0x12] = .ok (.remA 0x06 0x1234567890ABCDEF, []) ∧
    decode [0xFF, 0x1B, 0x06, 0x07] = .ok (.remP 0x06 0x07, []) := by
  decide

theorem test_decode_shift :
    decode [0xFF, 0x20, 0x06, 0x07] = .ok (.shrR 0x06 0x07, []) ∧
    decode [0xFF, 0x21, 0x06, 0xEF, 0xCD, 0xAB, 0x90, 0x78, 0x56, 0x34, 0x12] = .ok (.shrL 0x06 0x1234567890ABCDEF, []) ∧
    decode [0xFF, 0x22, 0x06, 0xEF, 0xCD, 0xAB, 0x90, 0x78, 0x56, 0x34, 0x12] = .ok (.shrA 0x06 0x1234567890ABCDEF, []) ∧
    decode [0xFF, 0x23, 0x06, 0x07] = .ok (.shrP 0x06 0x07, []) := by
  decide

theorem test_decode_mvb :
    decode [0xFF, 0x30, 0x06, 0x07] = .ok (.mvbR 0x06 0x07, []) ∧
    decode [0xFF, 0x31, 0x06, 0xEF, 0xCD, 0xAB, 0x90, 0x78, 0x56, 0x34, 0x12] = .ok (.mvbL 0x06 0x1234567890ABCDEF, []) ∧
    decode [0xFF, 0x32, 0x06, 0xEF, 0xCD, 0xAB, 0x90, 0x78, 0x56, 0x34, 0x12] = .ok (.mvbA 0x06 0x1234567890ABCDEF, []) ∧
    decode [0xFF, 0x33, 0x06, 0x07] = .ok (.mvbP 0x06 0x07, []) := by
  decide

theorem test_decode_mvw :
    decode [0xFF, 0x34, 0x06, 0x07] = .ok (.mvwR 0x06 0x07, []) ∧
    decode [0xFF, 0x35, 0x06, 0xEF, 0xCD, 0xAB, 0x90, 0x78, 0x56, 0x34, 0x12] = .ok (.mvwL 0x06 0x1234567890ABCDEF, []) ∧
    decode [0xFF, 0x36, 0x06, 0xEF, 0xCD, 0xAB, 0x90, 0x78, 0x56, 0x34, 0x12] = .ok (.mvwA 0x06 0x1234567890ABCDEF, []) ∧
    decode [0xFF, 0x37, 0x06, 0x07] = .ok (.mvwP 0x06 0x07, []) := by
  decide

theorem test_decode_mvd :
    decode [0xFF, 0x40, 0x06, 0x07] = .ok (.mvdR 0x06 0x07, []) ∧
    decode [0xFF, 0x41, 0x06, 0xEF, 0xCD, 0xAB, 0x90, 0x78, 0x56, 0x34, 0x12] = .ok (.mvdL 0x06 0x1234567890ABCDEF, []) ∧
    decode [0xFF, 0x42, 0x06, 0xEF, 0xCD, 0xAB, 0x90, 0x78, 0x56, 0x34, 0x12] = .ok (.mvdA 0x06 0x1234567890ABCDEF, []) ∧
    decode [0xFF, 0x43, 0x06, 0x07] = .ok (.mvdP 0x06 0x07, []) := by
  decide

theorem test_decode_console_writes :
    decode [0xFF, 0x50, 0x06] = .ok (.wcnR 0x06, []) ∧
    decode [0xFF, 0x51, 0xEF, 0xCD, 0xAB, 0x90, 0x78, 0x56, 0x34, 0x12] = .ok (.wcnL 0x1234567890ABCDEF, []) ∧
    decode [0xFF, 0x52, 0xEF, 0xCD, 0xAB, 0x90, 0x78, 0x56, 0x34, 0x12] = .ok (.wcnA 0x1234567890ABCDEF, []) ∧
    decode [0xFF, 0x53, 0x06] = .ok (.wcnP 0x06, []) ∧
    decode [0xFF, 0x54, 0x06] = .ok (.wcbR 0x06, []) ∧
    decode [0xFF, 0x55, 0xEF, 0xCD, 0xAB, 0x90, 0x78, 0x56, 0x34, 0x12] = .ok (.wcbL 0x1234567890ABCDEF, []) ∧
    decode [0xFF, 0x56, 0xEF, 0xCD, 0xAB, 0x90, 0x78, 0x56, 0x34, 0x12] = .ok (.wcbA 0x1234567890ABCDEF, []) ∧
    decode [0xFF, 0x57, 0x06] = .ok (.wcbP 0x06, []) := by
  decide

theorem test_decode_file_writes :
    decode [0xFF, 0x60, 0x06] = .ok (.wfnR 0x06, []) ∧
    decode [0xFF, 0x61, 0xEF, 0xCD, 0xAB, 0x90, 0x78, 0x56, 0x34, 0x12] = .ok (.wfnL 0x1234567890ABCDEF, []) ∧
    decode [0xFF, 0x62, 0xEF, 0xCD, 0xAB, 0x90, 0x78, 0x56, 0x34, 0x12] = .ok (.wfnA 0x1234567890ABCDEF, []) ∧
    decode [0xFF, 0x63, 0x06] = .ok (.wfnP 0x06, []) ∧
    decode [0xFF, 0x64, 0x06] = .ok (.wfbR 0x06, []) ∧
    decode [0xFF, 0x65, 0xEF, 0xCD, 0xAB, 0x90, 0x78, 0x56, 0x34, 0x12] = .ok (.wfbL 0x1234567890ABCDEF, []) ∧
    decode [0xFF, 0x66, 0xEF, 0xCD, 0xAB, 0x90, 0x78, 0x56, 0x34, 0x12] = .ok (.wfbA 0x1234567890ABCDEF, []) ∧
    decode [0xFF, 0x67, 0x06] = .ok (.wfbP 0x06, []) := by
  decide

theorem test_decode_unary_and_halt :
    decode [0xFF, 0x70, 0x06] = .ok (.exb 0x06, []) ∧
    decode [0xFF, 0x71, 0x06] = .ok (.exw 0x06, []) ∧
    decode [0xFF, 0x72, 0x06] = .ok (.exd 0x06, []) ∧
    decode [0xFF, 0x80, 0x06] = .ok (.neg 0x06, []) ∧
    decode [0x00] = .ok (.hlt, []) := by
  decide

theorem test_decode_rejects :
    decode [] = .error .truncated ∧ decode [0xFF] = .error .truncated ∧ decode [0xFF, 0x10, 0x06] = .error .truncated ∧
      decode [0xFE, 0x00] = .error .invalidOpcode ∧ decode [0xFF, 0x1C] = .error .invalidOpcode ∧
      decode [0xFF, 0xFF] = .error .invalidOpcode := by
  decide

/-- The word of a row has its first byte in bits 7:0. -/
theorem test_table_word :
    decodeTableWord 16 0x10FF = some (.divR 0x00 0x00) ∧ decodeTableWord 8 0x00 = some .hlt ∧
      decodeTableWord 32 0x070610FF = some (.divR 0x06 0x07) := by
  decide

/-! ### One step -/

/-- 95_test_vectors.md J1. -/
theorem test_jlt_taken :
    after (start [0xFF, 0x00, 0x00, 0x01, 0x00, 0x00, 0x00, 0x00, 0x00, 0x00] (regs := [(.rsf, 0x8)]) (pc := 0x20) (size := 0x200))
      (fun t => (t.pc, t.getReg .rsf)) =
    some (0x100, 0x8) := by
  decide

/-- 95_test_vectors.md J2. -/
theorem test_jlt_not_taken :
    after (start [0xFF, 0x00, 0x00, 0x01, 0x00, 0x00, 0x00, 0x00, 0x00, 0x00] (regs := [(.rsf, 0x18)]) (pc := 0x20) (size := 0x200))
      (fun t => (t.pc)) =
    some (0x2A) := by
  decide

/-- 95_test_vectors.md J3. -/
theorem test_jle_equal_pointer :
    after (start [0xFF, 0x03, 0x06] (regs := [(.rsf, 0x1), (.rg0, 0x40)]))
      (fun t => (t.pc)) =
    some (0x40) := by
  decide

/-- 95_test_vectors.md J4. -/
theorem test_jgt_not_taken :
    after (start [0xFF, 0x04, 0x00, 0x00, 0x00, 0x00, 0x00, 0x00, 0x00, 0x00] (regs := [(.rsf, 0x1)]) (pc := 0xB))
      (fun t => (t.pc)) =
    some (0x15) := by
  decide

/-- 41_signed_jumps.md R144. -/
theorem test_jge_taken :
    after (start [0xFF, 0x06, 0x30, 0x00, 0x00, 0x00, 0x00, 0x00, 0x00, 0x00] (regs := [(.rsf, 0x18)]))
      (fun t => (t.pc)) =
    some (0x30) := by
  decide

/-- 95_test_vectors.md J5. -/
theorem test_jsi_pointer :
    after (start [0xFF, 0x09, 0x0F] (regs := [(.rsf, 0xC), (.rg9, 0x1234)]))
      (fun t => (t.pc, t.getReg .rsf)) =
    some (0x1234, 0xC) := by
  decide

/-- 41_signed_jumps.md R146. -/
theorem test_jns_ignores_overflow :
    after (start [0xFF, 0x0A, 0x00, 0x02, 0x00, 0x00, 0x00, 0x00, 0x00, 0x00] (regs := [(.rsf, 0x13)]) (pc := 0x10))
      (fun t => (t.pc)) =
    some (0x200) := by
  decide

/-- 95_test_vectors.md J8. -/
theorem test_jov_far_target :
    after (start [0xFF, 0x0C, 0xFF, 0xFF, 0xFF, 0xFF, 0xFF, 0xFF, 0xFF, 0xFF] (regs := [(.rsf, 0x10)]))
      (fun t => (t.pc)) =
    some (0xFFFFFFFFFFFFFFFF) := by
  decide

/-- 95_test_vectors.md J6. -/
theorem test_jno_rpo :
    after (start [0xFF, 0x0F, 0x00] (pc := 0x5))
      (fun t => (t.pc)) =
    some (0x5) := by
  decide

/-- 95_test_vectors.md J7. -/
theorem test_jlt_id_checked_when_not_taken : faultOf (start [0xFF, 0x01, 0x10]) = some .invalidRegister := by
  decide

/-- 95_test_vectors.md J10. -/
theorem test_jns_truncated : faultOf (start [0xFF, 0x0A, 0x30, 0x00, 0x00, 0x00, 0x00, 0x00, 0x00] (pc := 0x37)) = some .memoryBounds := by
  decide

/-- 95_test_vectors.md V20. -/
theorem test_div_keeps_file_end :
    after (start [0xFF, 0x10, 0x06, 0x07] (regs := [(.rg0, 0xFFFFFFFFFFFFFFF9), (.rg1, 0x2), (.rsf, 0x16)]))
      (fun t => (t.getReg .rg0, t.getReg .rg1, t.getReg .rsf, t.pc)) =
    some (0xFFFFFFFFFFFFFFFD, 0x2, 0xC, 0x4) := by
  decide

/-- 95_test_vectors.md V21. -/
theorem test_div_address :
    after (start [0xFF, 0x12, 0x06, 0x20, 0x00, 0x00, 0x00, 0x00, 0x00, 0x00, 0x00] (regs := [(.rg0, 0x64)]) (cells := [(0x20, 0xF9), (0x21, 0xFF), (0x22, 0xFF), (0x23, 0xFF), (0x24, 0xFF), (0x25, 0xFF), (0x26, 0xFF), (0x27, 0xFF)]))
      (fun t => (t.getReg .rg0, t.getReg .rsf, t.pc)) =
    some (0xFFFFFFFFFFFFFFF2, 0x8, 0xB) := by
  decide

/-- 95_test_vectors.md V27. -/
theorem test_div_by_rpo :
    after (start [0xFF, 0x10, 0x06, 0x00] (regs := [(.rg0, 0x9)]) (pc := 0x3))
      (fun t => (t.getReg .rg0, t.getReg .rsf, t.pc)) =
    some (0x3, 0x0, 0x7) := by
  decide

/-- 95_test_vectors.md S2. -/
theorem test_div_zero : faultOf (start [0xFF, 0x11, 0x06, 0x00, 0x00, 0x00, 0x00, 0x00, 0x00, 0x00, 0x00] (regs := [(.rg0, 0x9), (.rsf, 0xC)])) = some .divideByZero := by
  decide

/-- 95_test_vectors.md V35. -/
theorem test_div_into_rsf :
    after (start [0xFF, 0x11, 0x03, 0x02, 0x00, 0x00, 0x00, 0x00, 0x00, 0x00, 0x00] (regs := [(.rsf, 0x64)]))
      (fun t => (t.getReg .rsf, t.pc)) =
    some (0x20, 0xB) := by
  decide

/-- 95_test_vectors.md V11. -/
theorem test_div_min_by_minus_one :
    after (start [0xFF, 0x11, 0x06, 0xFF, 0xFF, 0xFF, 0xFF, 0xFF, 0xFF, 0xFF, 0xFF] (regs := [(.rg0, 0x8000000000000000)]))
      (fun t => (t.getReg .rg0, t.getReg .rsf)) =
    some (0x8000000000000000, 0x8) := by
  decide

/-- 42_signed_divide.md R162. -/
theorem test_dvr_both_results :
    after (start [0xFF, 0x15, 0x06, 0x07, 0x07, 0x00, 0x00, 0x00, 0x00, 0x00, 0x00, 0x00] (regs := [(.rg0, 0xFFFFFFFFFFFFFC18), (.rg1, 0x55)]))
      (fun t => (t.getReg .rg0, t.getReg .rg1, t.getReg .rsf, t.pc)) =
    some (0xFFFFFFFFFFFFFF72, 0xFFFFFFFFFFFFFFFA, 0x8, 0xC) := by
  decide

/-- 95_test_vectors.md V29. -/
theorem test_dvr_same_register :
    after (start [0xFF, 0x15, 0x06, 0x06, 0x02, 0x00, 0x00, 0x00, 0x00, 0x00, 0x00, 0x00] (regs := [(.rg0, 0xFFFFFFFFFFFFFFF9)]))
      (fun t => (t.getReg .rg0, t.getReg .rsf, t.pc)) =
    some (0xFFFFFFFFFFFFFFFF, 0x8, 0xC) := by
  decide

/-- 95_test_vectors.md V30. -/
theorem test_dvr_divisor_is_second_destination :
    after (start [0xFF, 0x14, 0x06, 0x07, 0x07] (regs := [(.rg0, 0x64), (.rg1, 0xFFFFFFFFFFFFFFF9)]))
      (fun t => (t.getReg .rg0, t.getReg .rg1, t.getReg .rsf, t.pc)) =
    some (0xFFFFFFFFFFFFFFF2, 0x2, 0x8, 0x5) := by
  decide

/-- 95_test_vectors.md V31. -/
theorem test_dvr_destination_before_divisor : faultOf (start [0xFF, 0x15, 0x00, 0x06, 0x00, 0x00, 0x00, 0x00, 0x00, 0x00, 0x00, 0x00] (regs := [(.rg0, 0xFFFFFFFFFFFFFFF9)])) = some .illegalDestination := by
  decide

/-- 95_test_vectors.md V33. -/
theorem test_div_id_before_destination : faultOf (start [0xFF, 0x10, 0x00, 0x10]) = some .invalidRegister := by
  decide

/-- 95_test_vectors.md V6. -/
theorem test_rem_sign_of_dividend :
    after (start [0xFF, 0x19, 0x06, 0x07, 0x00, 0x00, 0x00, 0x00, 0x00, 0x00, 0x00] (regs := [(.rg0, 0xFFFFFFFFFFFFFFFB)]))
      (fun t => (t.getReg .rg0, t.getReg .rsf)) =
    some (0xFFFFFFFFFFFFFFFB, 0x8) := by
  decide

/-- 95_test_vectors.md V3. -/
theorem test_rem_positive :
    after (start [0xFF, 0x19, 0x06, 0xFE, 0xFF, 0xFF, 0xFF, 0xFF, 0xFF, 0xFF, 0xFF] (regs := [(.rg0, 0x7)]))
      (fun t => (t.getReg .rg0, t.getReg .rsf)) =
    some (0x1, 0x0) := by
  decide

/-- 95_test_vectors.md H9. -/
theorem test_shr_min_by_63 :
    after (start [0xFF, 0x21, 0x06, 0x3F, 0x00, 0x00, 0x00, 0x00, 0x00, 0x00, 0x00] (regs := [(.rg0, 0x8000000000000000)]))
      (fun t => (t.getReg .rg0, t.getReg .rsf, t.pc)) =
    some (0xFFFFFFFFFFFFFFFF, 0xA, 0xB) := by
  decide

/-- 95_test_vectors.md H18. -/
theorem test_shr_amount_not_modulo :
    after (start [0xFF, 0x21, 0x06, 0x80, 0x00, 0x00, 0x00, 0x00, 0x00, 0x00, 0x00] (regs := [(.rg0, 0x2)]))
      (fun t => (t.getReg .rg0, t.getReg .rsf)) =
    some (0x0, 0x3) := by
  decide

/-- 95_test_vectors.md H22. -/
theorem test_shr_clears_overflow :
    after (start [0xFF, 0x21, 0x06, 0x01, 0x00, 0x00, 0x00, 0x00, 0x00, 0x00, 0x00] (regs := [(.rg0, 0x4), (.rsf, 0x14)]))
      (fun t => (t.getReg .rg0, t.getReg .rsf)) =
    some (0x2, 0x4) := by
  decide

/-- 95_test_vectors.md H20. -/
theorem test_shr_self :
    after (start [0xFF, 0x20, 0x06, 0x06] (regs := [(.rg0, 0x3)]))
      (fun t => (t.getReg .rg0, t.getReg .rsf, t.pc)) =
    some (0x0, 0x3, 0x4) := by
  decide

/-- 95_test_vectors.md M3. -/
theorem test_mvb_last_byte :
    after (start [0xFF, 0x32, 0x06, 0x3F, 0x00, 0x00, 0x00, 0x00, 0x00, 0x00, 0x00] (cells := [(0x3F, 0x80)]))
      (fun t => (t.getReg .rg0, t.pc)) =
    some (0xFFFFFFFFFFFFFF80, 0xB) := by
  decide

/-- 95_test_vectors.md M14. -/
theorem test_mvb_into_rsf :
    after (start [0xFF, 0x31, 0x03, 0x80, 0x00, 0x00, 0x00, 0x00, 0x00, 0x00, 0x00])
      (fun t => (t.getReg .rsf)) =
    some (0xFFFFFFFFFFFFFF80) := by
  decide

/-- 95_test_vectors.md M11. -/
theorem test_mvb_pointer_is_destination :
    after (start [0xFF, 0x33, 0x08, 0x08] (regs := [(.rg2, 0x20)]) (cells := [(0x20, 0x90)]))
      (fun t => (t.getReg .rg2, t.pc)) =
    some (0xFFFFFFFFFFFFFF90, 0x4) := by
  decide

/-- 95_test_vectors.md M15. -/
theorem test_mvb_bounds_do_not_wrap : faultOf (start [0xFF, 0x33, 0x06, 0x07] (regs := [(.rg1, 0xFFFFFFFFFFFFFFFF)])) = some .memoryBounds := by
  decide

/-- 44_signed_moves.md R182. -/
theorem test_mvw_address :
    after (start [0xFF, 0x36, 0x06, 0x40, 0x00, 0x00, 0x00, 0x00, 0x00, 0x00, 0x00] (cells := [(0x40, 0x18), (0x41, 0xFC)]) (size := 0x80))
      (fun t => (t.getReg .rg0)) =
    some (0xFFFFFFFFFFFFFC18) := by
  decide

/-- 95_test_vectors.md M5. -/
theorem test_mvw_beyond_memory : faultOf (start [0xFF, 0x36, 0x06, 0x3F, 0x00, 0x00, 0x00, 0x00, 0x00, 0x00, 0x00]) = some .memoryBounds := by
  decide

/-- 95_test_vectors.md M8. -/
theorem test_mvd_address :
    after (start [0xFF, 0x42, 0x06, 0x3C, 0x00, 0x00, 0x00, 0x00, 0x00, 0x00, 0x00] (cells := [(0x3C, 0x00), (0x3D, 0x00), (0x3E, 0x00), (0x3F, 0x80)]))
      (fun t => (t.getReg .rg0)) =
    some (0xFFFFFFFF80000000) := by
  decide

/-- 95_test_vectors.md M10. -/
theorem test_mvd_sets_no_zero :
    after (start [0xFF, 0x41, 0x06, 0x00, 0x00, 0x00, 0x00, 0xFF, 0xFF, 0xFF, 0xFF] (regs := [(.rg0, 0x9)]))
      (fun t => (t.getReg .rg0, t.getReg .rsf)) =
    some (0x0, 0x0) := by
  decide

/-- 95_test_vectors.md E1. -/
theorem test_exb_clears_carry_overflow :
    after (start [0xFF, 0x70, 0x09] (regs := [(.rg3, 0xFB), (.rsf, 0x16)]))
      (fun t => (t.getReg .rg3, t.getReg .rsf, t.pc)) =
    some (0xFFFFFFFFFFFFFFFB, 0xC, 0x3) := by
  decide

/-- 95_test_vectors.md E8. -/
theorem test_exb_rsf :
    after (start [0xFF, 0x70, 0x03] (regs := [(.rsf, 0x84)]))
      (fun t => (t.getReg .rsf)) =
    some (0xFFFFFFFFFFFFFF8C) := by
  decide

/-- 95_test_vectors.md E5. -/
theorem test_exw_zero :
    after (start [0xFF, 0x71, 0x06] (regs := [(.rg0, 0xFFFF0000)]))
      (fun t => (t.getReg .rg0, t.getReg .rsf)) =
    some (0x0, 0x1) := by
  decide

/-- 95_test_vectors.md E6. -/
theorem test_exd_negative :
    after (start [0xFF, 0x72, 0x0F] (regs := [(.rg9, 0xFFFFFFFF), (.rsf, 0x2)]))
      (fun t => (t.getReg .rg9, t.getReg .rsf)) =
    some (0xFFFFFFFFFFFFFFFF, 0x8) := by
  decide

/-- 95_test_vectors.md S5. -/
theorem test_neg_min :
    after (start [0xFF, 0x80, 0x06] (regs := [(.rg0, 0x8000000000000000)]))
      (fun t => (t.getReg .rg0, t.getReg .rsf)) =
    some (0x8000000000000000, 0x8) := by
  decide

/-- 95_test_vectors.md E11. -/
theorem test_neg_rsf :
    after (start [0xFF, 0x80, 0x03] (regs := [(.rsf, 0x24)]))
      (fun t => (t.getReg .rsf)) =
    some (0xFFFFFFFFFFFFFFCC) := by
  decide

/-- 95_test_vectors.md W2. -/
theorem test_wcn_min :
    after (start [0xFF, 0x51, 0x00, 0x00, 0x00, 0x00, 0x00, 0x00, 0x00, 0x80])
      (fun t => (t.consoleOut, t.fileOut, t.pc)) =
    some ([0x2D, 0x39, 0x32, 0x32, 0x33, 0x33, 0x37, 0x32, 0x30, 0x33, 0x36, 0x38, 0x35, 0x34, 0x37, 0x37, 0x35, 0x38, 0x30, 0x38], [], 0xA) := by
  decide

/-- 46_signed_write.md R200: `DecSigned(0)`, `DecSigned(-1)`, `DecSigned(-46)` and `DecSigned(1234567890)`. -/
theorem test_decimal_text :
    decSigned 0 = [0x30] ∧ decSigned (-1) = [0x2D, 0x31] ∧ decSigned (-46) = [0x2D, 0x34, 0x36] ∧
      decSigned 1234567890 = [0x31, 0x32, 0x33, 0x34, 0x35, 0x36, 0x37, 0x38, 0x39, 0x30] := by
  decide

/-- 95_test_vectors.md W5. -/
theorem test_wcn_rpo :
    after (start [0xFF, 0x50, 0x00] (pc := 0x10))
      (fun t => (t.consoleOut, t.pc)) =
    some ([0x31, 0x36], 0x13) := by
  decide

/-- 95_test_vectors.md S6. -/
theorem test_wcb_low_byte :
    after (start [0xFF, 0x54, 0x06] (regs := [(.rg0, 0x499602D2)]))
      (fun t => (t.consoleOut, t.pc)) =
    some ([0x2D, 0x34, 0x36], 0x3) := by
  decide

/-- 46_signed_write.md R205. -/
theorem test_wfn_open :
    after (start [0xFF, 0x61, 0x72, 0xFF, 0xFF, 0xFF, 0xFF, 0xFF, 0xFF, 0xFF] (fileOpen := true))
      (fun t => (t.fileOut, t.consoleOut, t.pc)) =
    some ([0x2D, 0x31, 0x34, 0x32], [], 0xA) := by
  decide

/-- 95_test_vectors.md W11. -/
theorem test_wfn_device_before_data : faultOf (start [0xFF, 0x62, 0xE8, 0x03, 0x00, 0x00, 0x00, 0x00, 0x00, 0x00]) = some .fileOperation := by
  decide

/-- 95_test_vectors.md W10. -/
theorem test_wfb_pointer :
    after (start [0xFF, 0x67, 0x08] (regs := [(.rg2, 0x30)]) (cells := [(0x30, 0x9C)]) (fileOpen := true))
      (fun t => (t.fileOut, t.pc)) =
    some ([0x2D, 0x31, 0x30, 0x30], 0x3) := by
  decide

/-- 46_signed_write.md R201. -/
theorem test_wfb_id_before_device : faultOf (start [0xFF, 0x64, 0x10]) = some .invalidRegister := by
  decide

/-- 95_test_vectors.md X10. -/
theorem test_hlt_last_byte :
    after (start [0x00] (pc := 0x3F))
      (fun t => (t.pc, t.report)) =
    some (0x40, .halted) := by
  decide

/-- 95_test_vectors.md X1. -/
theorem test_fetch_at_end : faultOf (start [] (pc := 64)) = some .memoryBounds := by
  decide

/-- 95_test_vectors.md X8. -/
theorem test_invalid_before_operands : faultOf (start [0xFF, 0x24] (pc := 0x3E)) = some .invalidOpcode := by
  decide

/-- 95_test_vectors.md X13. -/
theorem test_div_destination_before_data : faultOf (start [0xFF, 0x13, 0x00, 0x06] (regs := [(.rg0, 0x3E8)])) = some .illegalDestination := by
  decide

/-! ### Witnesses: for each statement with hypotheses, states and operands that meet them -/

/-- `DIV rg0, rg1` with -7 and 2. -/
def divState : State := start [0xFF, 0x10, 0x06, 0x07] (regs := [(.rg0, 0xFFFFFFFFFFFFFFF9), (.rg1, 2), (.rsf, 0x16)])

/-- `JLT :0x30` with the flags given. -/
def jumpState (flags : Word) : State :=
  start [0xFF, 0x00, 0x30, 0x00, 0x00, 0x00, 0x00, 0x00, 0x00, 0x00] (regs := [(.rsf, flags)])

/-- `WFN rg0` with a file open and -1 in the register. -/
def writeState : State := start [0xFF, 0x60, 0x06] (regs := [(.rg0, 0xFFFFFFFFFFFFFFFF)]) (fileOpen := true)

theorem witness_EncodeRebuildsDecoded : decode [0xFF, 0x80, 0x06, 0xAA] = .ok (.neg 0x06, [0xAA]) := by decide

theorem witness_UnassignedOpcodesRejected :
    ((0x01 : Byte) ≠ 0x00 ∧ (0x01 : Byte) ≠ 0xFF) ∧ ((0xFE : Byte) ≠ 0x00 ∧ (0xFE : Byte) ≠ 0xFF) ∧
      ([0x1C, 0x1F, 0x24, 0x2F, 0x38, 0x3F, 0x44, 0x4F, 0x58, 0x5F, 0x68, 0x6F, 0x73, 0x7F, 0x81, 0xFF].all unassignedSub) ∧
      ([0x00, 0x1B, 0x20, 0x23, 0x30, 0x37, 0x40, 0x43, 0x50, 0x57, 0x60, 0x67, 0x70, 0x72, 0x80].all
        fun b => !unassignedSub b) := by
  decide

theorem witness_LengthFixedByOpcodeBytes :
    decode [0xFF, 0x50, 0x06, 0xAA] = .ok (.wcnR 0x06, [0xAA]) ∧ decode [0xFF, 0x50, 0x07] = .ok (.wcnR 0x07, []) ∧
      decode [0x00] = .ok (.hlt, []) := by
  decide

theorem witness_StepRunsDecodedInstruction :
    1 < divState.fetchBytes.length ∧ (decode divState.fetchBytes).map Prod.fst = .ok (.divR 0x06 0x07) := by
  decide

theorem witness_FetchFaults_pc_at_end : (start [] (pc := 64)).memSize.val ≤ (start [] (pc := 64)).pc.toNat := by decide

theorem witness_FetchFaults_extended_at_end :
    (start [0xFF] (pc := 63)).memSize.val = (start [0xFF] (pc := 63)).pc.toNat + 1 ∧
      (start [0xFF] (pc := 63)).mem.readByte 63 = 0xFF := by
  decide

theorem witness_FetchFaults_first_byte :
    (start [0xFE] (pc := 63)).pc.toNat < (start [0xFE] (pc := 63)).memSize.val ∧
      (start [0xFE] (pc := 63)).mem.readByte 63 ≠ 0x00 ∧ (start [0xFE] (pc := 63)).mem.readByte 63 ≠ 0xFF := by
  decide

theorem witness_FetchFaults_second_byte :
    (start [0xFF, 0x24] (pc := 62)).pc.toNat + 1 < (start [0xFF, 0x24] (pc := 62)).memSize.val ∧
      (start [0xFF, 0x24] (pc := 62)).mem.readByte 62 = 0xFF ∧
      unassignedSub ((start [0xFF, 0x24] (pc := 62)).mem.readByte 63) = true := by
  decide

theorem witness_FetchFaults_operands :
    let s := start [0xFF, 0x15] (pc := 53)
    s.pc.toNat + 1 < s.memSize.val ∧ [s.mem.readByte 53, s.mem.readByte 54] <+: encode (.dvrL 0x06 0x07 7) ∧
      s.memSize.val < s.pc.toNat + (Instr.dvrL 0x06 0x07 7).length := by
  decide

/-- No jump; also the completed division of several statements below. -/
theorem witness_StepAdvancesWithoutWrapping :
    ∃ t i rest, decode divState.fetchBytes = .ok (i, rest) ∧ step divState = .next t ∧ takenTarget i divState = none :=
  ⟨_, _, _, rfl, rfl, rfl⟩

theorem witness_StepAdvancesWithoutWrapping_taken :
    ∃ t i rest, decode (jumpState 8).fetchBytes = .ok (i, rest) ∧ step (jumpState 8) = .next t ∧
      takenTarget i (jumpState 8) = some 0x30 :=
  ⟨_, _, _, rfl, rfl, rfl⟩

theorem witness_StepKeepsCanonicalMemory :
    divState.mem ≠ [] ∧ MemoryInv divState ∧ ∃ t, step divState = .next t :=
  ⟨by decide, ⟨by decide, by decide⟩, _, rfl⟩

theorem witness_StepKeepsSinksDecimal :
    SinksDecimal (writeState.fileWrite [0x2D, 0x31]) ∧ ∃ t, step (writeState.fileWrite [0x2D, 0x31]) = .next t :=
  ⟨⟨by decide, by decide⟩, _, rfl⟩

theorem witness_StatusRegisterByClass_preserving :
    (∃ t, exec (.mvbR 0x06 0x07) divState = .next t) ∧ idByte .rsf ∉ destIds (.mvbR 0x06 0x07) ∧
      isFlagSetting (.mvbR 0x06 0x07) = false :=
  ⟨⟨_, rfl⟩, by decide, by decide⟩

/-- `0x0C` differs from the `rsf` held in Carry, Sign and Overflow, and in no sticky bit. -/
theorem witness_StatusRegisterByClass_setting :
    (∃ t, exec (.divR 0x06 0x07) divState = .next t) ∧ idByte .rsf ∉ destIds (.divR 0x06 0x07) ∧
      isFlagSetting (.divR 0x06 0x07) = true ∧ idByte .rsf ∉ (Instr.divR 0x06 0x07).regIds ∧
      (0x0C : Word) &&& maskSticky = divState.getReg .rsf &&& maskSticky ∧ (0x0C : Word) ≠ divState.getReg .rsf ∧
      destIds (.divR 0x06 0x07) = [idByte .rg0] :=
  ⟨⟨_, rfl⟩, by decide, by decide, by decide, by decide, by decide, by decide⟩

/-- The divisor is `rsf` itself: Zero and Sign are still those of the result. -/
theorem witness_StatusRegisterByClass_source :
    (∃ t, exec (.divR 0x06 0x03) divState = .next t) ∧ idByte .rsf ∉ destIds (.divR 0x06 0x03) ∧
      isFlagSetting (.divR 0x06 0x03) = true ∧ destIds (.divR 0x06 0x03) = [idByte .rg0] :=
  ⟨⟨_, rfl⟩, by decide, by decide, by decide⟩

/-- `rsf` itself is the register kept: the instruction preserves flags and does not name it. -/
theorem witness_StepKeepsRegisterInvariants :
    ∃ t i rest, decode writeState.fetchBytes = .ok (i, rest) ∧ step writeState = .next t ∧
      isFlagSetting i = false ∧ idByte .rsf ∉ destIds i :=
  ⟨_, .wfnR 0x06, _, rfl, rfl, by decide, by decide⟩

theorem witness_SequencerWritesProgramCounter : ∃ t, exec (.jltA 0x30) (jumpState 8) = .next t := ⟨_, rfl⟩

theorem witness_StepLeavesMemoryAndInputs : ∃ t, step writeState = .next t := ⟨_, rfl⟩

theorem witness_SinksAreAppendOnly :
    (∃ t, exec (.wfnR 0x06) writeState = .next t) ∧ isConsoleWrite (.wfnR 0x06) = false ∧
      (∃ t, exec (.wcnR 0x06) writeState = .next t) ∧ isFileWrite (.wcnR 0x06) = false :=
  ⟨⟨_, rfl⟩, by decide, ⟨_, rfl⟩, by decide⟩

/-- A jump, and a value of `rsf` that differs from the one held in Carry, FileEnd and bit 63. -/
theorem witness_StatusRegisterReadOnlyWhereNamed :
    idByte .rsf ∉ (Instr.jltA 0x30).regIds ∧ (jumpState 8).getReg .rsf ≠ 0x800000000000000E ∧
      (flagOf maskZ 0x800000000000000E = (jumpState 8).flagZ ∧ flagOf maskS 0x800000000000000E = (jumpState 8).flagS ∧
        flagOf maskO 0x800000000000000E = (jumpState 8).flagO) ∧
      ∃ t, exec (.jltA 0x30) (jumpState 8) = .next t :=
  ⟨by decide, by decide, by decide, _, rfl⟩

/-- A faulting instruction that does not name `rsf` and is no jump. -/
theorem witness_StatusRegisterReadOnlyWhereNamed_fault :
    idByte .rsf ∉ (Instr.divL 0x06 0).regIds ∧ (∀ c t, shapeOf (.divL 0x06 0) ≠ .jump c t) ∧
      exec (.divL 0x06 0) divState = .fault .divideByZero :=
  ⟨by decide, nofun, rfl⟩

theorem witness_OverflowClearedCarryOnlyByShr :
    ∃ t, exec (.shrL 0x06 1) divState = .next t ∧ isFlagSetting (.shrL 0x06 1) = true ∧ t.flagC = false :=
  ⟨_, rfl, by decide, by decide⟩

theorem witness_OverflowClearedCarryOnlyByShr_carry :
    ∃ t, exec (.shrL 0x06 2) divState = .next t ∧ isFlagSetting (.shrL 0x06 2) = true ∧ t.flagC = true :=
  ⟨_, rfl, by decide, by decide⟩

theorem witness_IllegalDestinationExactly :
    (Instr.dvrR 0x06 0x00 0x07).WellFormed = true ∧ (0x00 : Byte) ∈ destIds (.dvrR 0x06 0x00 0x07) ∧
      (Instr.divR 0x0F 0x00).WellFormed = true ∧ (0x00 : Byte) ∉ destIds (.divR 0x0F 0x00) := by
  decide

theorem witness_FileOperationExactly :
    (Instr.wfbL 1).WellFormed = true ∧ isFileWrite (.wfbL 1) = true ∧ State.reset.fileOpen = false := by
  decide

theorem witness_DivideByZeroExactly :
    (Instr.divL 0x06 0).WellFormed = true ∧ (0x00 : Byte) ∉ destIds (.divL 0x06 0) ∧ divisorIsZero (.divL 0x06 0) divState :=
  ⟨by decide, by decide, rfl, _, _, .lit 0, rfl, rfl, rfl⟩

/-- Eight bytes from offset 57 of 64. -/
theorem witness_DataReadBoundsExactly :
    (Instr.divA 0x06 57).WellFormed = true ∧ (0x00 : Byte) ∉ destIds (.divA 0x06 57) ∧
      (isFileWrite (.divA 0x06 57) = true → divState.fileOpen = true) ∧ sourceOutOfBounds (.divA 0x06 57) divState :=
  ⟨by decide, by decide, by decide, _, _, .addr 57, 57, rfl, rfl, rfl, by decide⟩

/-- Eight bytes from offset 56 of 64, with a file open. -/
theorem witness_DataReadBoundsExactly_within :
    (Instr.wfnA 56).WellFormed = true ∧ (0x00 : Byte) ∉ destIds (.wfnA 56) ∧ writeState.fileOpen = true ∧
      exec (.wfnA 56) writeState ≠ .fault .memoryBounds :=
  ⟨by decide, by decide, by decide, nofun⟩

theorem witness_FaultsWithinTable : exec (.exb 0x10) divState = .fault .invalidRegister := rfl

theorem witness_DivGivesTruncatedQuotient :
    (Reg.rg0 ≠ .rpo ∧ Reg.rg0 ≠ .rsf) ∧
      (Source.reg .rg1).value divState 8 = .ok 2 ∧ (2 : Word) ≠ 0 ∧
      ¬(divState.getReg .rg0 = 0x8000000000000000 ∧ (2 : Word) = 0xFFFFFFFFFFFFFFFF) := by
  decide

theorem witness_RemGivesTruncatedRemainder :
    (Reg.rg0 ≠ .rpo ∧ Reg.rg0 ≠ .rsf) ∧
      (Source.addr 0).value divState 8 = .ok 0x070610FF ∧ (0x070610FF : Word) ≠ 0 := by
  decide

theorem witness_DvrGivesQuotientAndRemainder :
    (Reg.rg0 ≠ .rpo ∧ Reg.rg1 ≠ .rpo ∧ Reg.rg0 ≠ .rsf ∧ Reg.rg1 ≠ .rsf) ∧
      (Source.ptr .rg1).value divState 8 = .ok 0x0706 ∧ (0x0706 : Word) ≠ 0 ∧
      ¬(divState.getReg .rg0 = 0x8000000000000000 ∧ (0x0706 : Word) = 0xFFFFFFFFFFFFFFFF) := by
  decide

theorem witness_MinByMinusOneWraps :
    (Reg.rg0 ≠ .rpo ∧ Reg.rg1 ≠ .rpo ∧ Reg.rg0 ≠ .rsf ∧ Reg.rg1 ≠ .rsf) ∧
      (Source.lit 0xFFFFFFFFFFFFFFFF).value (divState.setReg .rg0 0x8000000000000000) 8 = .ok 0xFFFFFFFFFFFFFFFF ∧
      (divState.setReg .rg0 0x8000000000000000).getReg .rg0 = 0x8000000000000000 := by
  decide

theorem witness_DivisionLaw :
    (0xFFFFFFFFFFFFFFFF : Word) ≠ 0 ∧
      ¬((0x8000000000000001 : Word) = 0x8000000000000000 ∧ (0xFFFFFFFFFFFFFFFF : Word) = 0xFFFFFFFFFFFFFFFF) := by
  decide

/-- The amounts where the clauses meet. -/
theorem witness_ShrShiftsArithmetically :
    (Source.lit 63).value divState 8 = .ok 63 ∧ (63 : Word).toNat < 64 ∧ (Source.lit 64).value divState 8 = .ok 64 ∧
      64 ≤ (64 : Word).toNat ∧ (Reg.rg0 ≠ .rpo ∧ Reg.rg0 ≠ .rsf) := by
  decide

theorem witness_ShrCarrySourcePoints : 64 ≤ (64 : Word).toNat ∧ 64 ≤ (0xFFFFFFFFFFFFFFFF : Word).toNat := by decide

/-- The last byte, half-word and double word of memory, into `rsf`. -/
theorem witness_MovesSignExtendTheSlice :
    Reg.rsf ≠ .rpo ∧ (Source.addr 63).value divState 1 = .ok 0 ∧ (Source.addr 62).value divState 2 = .ok 0 ∧
      (Source.addr 60).value divState 4 = .ok 0 := by
  decide

theorem witness_ExtendsInPlace : Reg.rg9 ≠ .rpo ∧ Reg.rg9 ≠ .rsf := by decide

theorem witness_NegNegatesModulo : Reg.rso ≠ .rpo ∧ Reg.rso ≠ .rsf := by decide

theorem witness_UnaryTwice : Reg.rg0 ≠ .rpo ∧ Reg.rg0 ≠ .rsf ∧ UnaryOp.exb ≠ .neg := by decide

theorem witness_StatusRegisterAsDestination :
    (Source.lit 2).value divState 8 = .ok 2 ∧ quotRem (divState.getReg .rsf) 2 = .ok (11, 0) ∧
      (Reg.rg0 ≠ .rpo ∧ Reg.rg0 ≠ .rsf) ∧
      quotRem (divState.getReg .rg0) 2 = .ok (0xFFFFFFFFFFFFFFFD, 0xFFFFFFFFFFFFFFFF) := by
  decide

theorem witness_ConsoleWritesAppendDecimal :
    (Source.reg .rg0).value divState 8 = .ok 0xFFFFFFFFFFFFFFF9 ∧ (Source.addr 63).value divState 1 = .ok 0 := by
  decide

theorem witness_FileWritesAppendDecimal :
    writeState.fileOpen = true ∧ (Source.addr 56).value writeState 8 = .ok 0 ∧
      (Source.ptr .rpo).value writeState 1 = .ok 0xFF := by
  decide

/-- The ends of the range, and the values where the clauses meet. -/
theorem witness_DecimalTextReadsBack :
    ∀ z ∈ [-2 ^ 63, -1, 0, 1, 2 ^ 63 - 1], (-2 ^ 63 : Int) ≤ z ∧ z < (2 ^ 63 : Int) := by
  decide

/-- Within and beyond memory, at the boundary, for the shortest and the longest access. -/
theorem witness_MemReadIsLittleEndian :
    (1 ∈ [1, 2, 4, 8] ∧ 8 ∈ [1, 2, 4, 8]) ∧ (56 : Word).toNat + 8 ≤ divState.memSize.val ∧
      divState.memSize.val < (57 : Word).toNat + 8 ∧ (63 : Word).toNat + 1 ≤ divState.memSize.val ∧
      divState.memSize.val < (0xFFFFFFFFFFFFFFFF : Word).toNat + 1 := by
  decide

theorem witness_MemWriteStoresLowBytes :
    divState.mem.wf ∧ (60 : Word).toNat + 4 ≤ divState.memSize.val ∧ divState.memSize.val < (61 : Word).toNat + 4 ∧
      ∃ t, exec (.divR 0x06 0x07) divState = .next t :=
  ⟨by decide, by decide, by decide, _, rfl⟩

theorem witness_ConstructZeroesEverything : ∃ t, step State.reset = .next t := ⟨_, rfl⟩

/-- A program that fills memory, and one byte more. -/
theorem witness_LoadedProgramRuns :
    (State.construct 3).mem.wf ∧ (State.construct 3).pc = 0 ∧ [0xFF, 0x80, 0x06].length ≤ (State.construct 3).memSize.val ∧
      encode (.neg 0x06) <+: [0xFF, 0x80, 0x06] ∧ (State.construct 3).memSize.val < [0xFF, 0x80, 0x06, 0x00].length := by
  decide

/-- A jump to a zero byte: suspended after one step, halted after the next; and a fault at once. -/
theorem witness_RunEndsAsItsLastStep :
    (∃ u, step (jumpState 8) = .next u ∧ u.report = .next ∧ ∃ t, step u = .next t ∧ t.report = .halted) ∧
      (∃ t, run 2 (jumpState 8) = (.halted, t)) ∧ (∃ t, run 1 (jumpState 8) = (.stopped, t)) ∧
      step (start [0x01]) = .fault .invalidOpcode ∧ ∃ t, run 1 (start [0x01]) = (.fault .invalidOpcode, t) :=
  ⟨⟨_, rfl, rfl, _, rfl, rfl⟩, ⟨_, rfl⟩, ⟨_, rfl⟩, rfl, ⟨_, rfl⟩⟩

end Sys2Proof.Tests
end

section
/-!
SUPPORT. What a completed instruction leaves in the register file (10_state.md R41), family by family over `Completion`; the
bits of `rsf` (10_state.md R28, R31, R34); and what a flag-setting instruction reads of `rsf` (10_state.md R30).
-/

namespace Sys2Proof.Machine

/-! ### Operand bytes and destinations -/

@[simp] theorem idByte_eq_idByte {a b : Reg} : idByte a = idByte b ↔ a = b := ⟨idByte_inj, congrArg idByte⟩

@[simp] theorem destIds_jump (c : Cond) (t : Target Byte) : destIds (Shape.jump c t).instr = [] := by
  simp [destIds]
@[simp] theorem destIds_dest (op : DestOp) (d : Byte) (src : Source Byte) :
    destIds (Shape.dest op d src).instr = [d] := by
  simp [destIds]
@[simp] theorem destIds_dvr (d d2 : Byte) (src : Source Byte) : destIds (Shape.dvr d d2 src).instr = [d, d2] := by
  simp [destIds]
@[simp] theorem destIds_unary (op : UnaryOp) (d : Byte) : destIds (Shape.unary op d).instr = [d] := by
  simp [destIds]
@[simp] theorem destIds_write (op : WriteOp) (src : Source Byte) : destIds (Shape.write op src).instr = [] := by
  simp [destIds]
@[simp] theorem destIds_hlt : destIds .hlt = [] := rfl

theorem isFlagSetting_dest_iff (op : DestOp) (d : Byte) (src : Source Byte) :
    isFlagSetting (Shape.dest op d src).instr = true ↔ op = .div ∨ op = .rem ∨ op = .shr := by
  cases op <;> simp [isFlagSetting]

/-! ### The register file after a completed instruction -/

@[simp] theorem getReg_rpo_setReg (s : State) {r : Reg} (v : Word) (hr : r ≠ .rpo) :
    (s.setReg r v).getReg .rpo = s.getReg .rpo :=
  getReg_setReg_ne s v hr.symm

/-- R126: the target of a taken jump, else the offset of the following instruction. -/
theorem Completion.getReg_rpo {s t : State} {i : Instr} (h : Completion s i t) :
    t.getReg .rpo = (takenTarget i s).getD (s.pc + BitVec.ofNat 64 i.length) := by
  cases h with
  | jump c o =>
    by_cases hc : c.holds s.flagS s.flagO s.flagZ <;> simp [takenTarget, length_shape, hc]
  | hlt => simp [takenTarget, shapeOf, Instr.length]
  | flagging | move | dvr | unary => simp_all [takenTarget, length_shape, pc_def]
  | console | file => simp [takenTarget, length_shape, pc_def]

/-- A register that is neither the program counter, nor a destination, nor the `rsf` of a flag-setting instruction is kept. -/
theorem Completion.getReg_frame {s t : State} {i : Instr} (h : Completion s i t) {r : Reg} (hr : r ≠ .rpo)
    (hf : r = .rsf → isFlagSetting i = false) (hd : idByte r ∉ destIds i) : t.getReg r = s.getReg r := by
  have not_rsf (hs : isFlagSetting i = true) : r ≠ .rsf := fun e => by simp [hf e] at hs
  cases h with
  | jump c o => split <;> simp [hr]
  | flagging op d o sv v c hop =>
    have hs : r ≠ .rsf := not_rsf ((isFlagSetting_dest_iff ..).2 hop)
    simp_all
  | move => simp_all
  | dvr => have hs : r ≠ .rsf := not_rsf (by simp [isFlagSetting]); simp_all
  | unary => have hs : r ≠ .rsf := not_rsf (by simp [isFlagSetting]); simp_all
  | console | file | hlt => simp [hr]

/-- R114: an instruction that completes names the program counter as no destination. -/
theorem Completion.rpo_not_dest {s t : State} {i : Instr} (h : Completion s i t) : idByte .rpo ∉ destIds i := by
  cases h with
  | flagging _ _ _ _ _ _ _ hr => simpa using hr.symm
  | move _ _ _ _ _ _ hr => simpa using hr.symm
  | dvr _ _ _ _ _ _ hr hr2 => simpa using ⟨hr.symm, hr2.symm⟩
  | unary _ _ _ _ hr => simpa using hr.symm
  | jump | console | file | hlt => simp

/-! ### The bits of `rsf` -/

theorem flagBit_getLsbD (m : Word) (b : Bool) (k : Nat) : (flagBit m b).getLsbD k = (b && m.getLsbD k) := by
  cases b <;> simp [flagBit]

/-- The sticky bits are all but 0, 1, 3 and 4. -/
theorem maskSticky_getLsbD : ∀ k < 64, maskSticky.getLsbD k = decide (k ≠ 0 ∧ k ≠ 1 ∧ k ≠ 3 ∧ k ≠ 4) := by decide

/-- Each flag mask is its one bit (10_state.md R28). -/
theorem flagMasks_getLsbD : ∀ k < 64, maskZ.getLsbD k = decide (k = 0) ∧ maskC.getLsbD k = decide (k = 1) ∧
    maskS.getLsbD k = decide (k = 3) ∧ maskO.getLsbD k = decide (k = 4) := by decide

/-- `SetFlags` bit by bit: its arguments in bits 0, 1, 3 and 4, the old value elsewhere. -/
theorem setFlags_getLsbD (z c n o : Bool) (v : Word) {k : Nat} (hk : k < 64) :
    (setFlags z c n o v).getLsbD k =
      if k = 0 then z else if k = 1 then c else if k = 3 then n else if k = 4 then o else v.getLsbD k := by
  obtain ⟨hz, hc, hs, ho⟩ := flagMasks_getLsbD k hk
  simp only [setFlags, BitVec.getLsbD_or, BitVec.getLsbD_and, flagBit_getLsbD, maskSticky_getLsbD k hk, hz, hc, hs, ho]
  split_ifs <;> simp_all

/-- The formula of R31, each flag bit a shifted argument. -/
theorem setFlags_eq_shifts (z c n o : Bool) (v : Word) :
    setFlags z c n o v = (v &&& maskSticky) ||| (BitVec.ofBool z).setWidth 64 |||
      ((BitVec.ofBool c).setWidth 64 <<< 1) ||| ((BitVec.ofBool n).setWidth 64 <<< 3) |||
      ((BitVec.ofBool o).setWidth 64 <<< 4) := by
  have hz : flagBit maskZ z = (BitVec.ofBool z).setWidth 64 := by revert z; decide
  have hc : flagBit maskC c = (BitVec.ofBool c).setWidth 64 <<< 1 := by revert c; decide
  have hn : flagBit maskS n = (BitVec.ofBool n).setWidth 64 <<< 3 := by revert n; decide
  have ho : flagBit maskO o = (BitVec.ofBool o).setWidth 64 <<< 4 := by revert o; decide
  rw [setFlags, hz, hc, hn, ho]

/-! ### What a flag-setting instruction reads of `rsf` -/

theorem Source.value_setReg {src : Source Byte} {o : Source Reg} (hc : src.check = .ok o) {r : Reg}
    (hr : idByte r ∉ src.ids) (s : State) (v : Word) (n : Nat) : o.value (s.setReg r v) n = o.value s n := by
  obtain rfl := (source_check_ok_iff _ _).1 hc
  cases o with
  | reg q =>
    have hq : q ≠ r := by simpa [Source.raw, Source.ids, eq_comm] using hr
    simp [Source.value, hq]
  | ptr q =>
    have hq : q ≠ r := by simpa [Source.raw, Source.ids, eq_comm] using hr
    simp [Source.value, hq, State.memRead, State.admits]
  | lit | addr => rfl

/-- The operands of `OP d, s` do not depend on a register the source does not name. -/
theorem destAndSource_setReg (n : Nat) (d : Byte) {src : Source Byte} {r : Reg} (hr : idByte r ∉ src.ids) (s : State)
    (v : Word) : destAndSource n d src (s.setReg r v) = destAndSource n d src s := by
  unfold destAndSource
  cases hc : src.check with
  | error f => rfl
  | ok o => simp only [bind, Except.bind, Source.value_setReg hc hr]

theorem dvrOperands_setReg (d d2 : Byte) {src : Source Byte} {r : Reg} (hr : idByte r ∉ src.ids) (s : State)
    (v : Word) : dvrOperands d d2 src (s.setReg r v) = dvrOperands d d2 src s := by
  unfold dvrOperands
  cases hc : src.check with
  | error f => rfl
  | ok o => simp only [bind, Except.bind, Source.value_setReg hc hr]

theorem destOnly_ok {d : Byte} {r : Reg} (h : destOnly d = .ok r) : d = idByte r := by
  cases hd : regOf d with
  | error f => simp [destOnly, bind, Except.bind, hd] at h
  | ok q =>
    obtain rfl := (regOf_ok_iff _ _).1 hd
    rw [destOnly_raw] at h
    split at h
    · cases h
    · cases h; rfl

theorem setReg_setReg_same (s : State) (r : Reg) (v w : Word) : (s.setReg r v).setReg r w = s.setReg r w :=
  state_ext (fun q => by by_cases hq : q = r <;> simp [hq]) rfl rfl rfl rfl rfl rfl

theorem setReg_comm (s : State) {r q : Reg} (h : r ≠ q) (v w : Word) :
    (s.setReg r v).setReg q w = (s.setReg q w).setReg r v :=
  state_ext (fun p => by by_cases hp : p = q <;> simp [getReg_setReg, hp, h.symm]) rfl rfl rfl rfl rfl rfl

section
variable {s : State} {v : Word} (hv : v &&& maskSticky = s.getReg .rsf &&& maskSticky)
include hv

/-- `SetZS` overwrites what the four arithmetic flags were before. -/
theorem setZS_setReg_rsf (x : Word) (c o : Bool) : (s.setReg .rsf v).setZS x c o = s.setZS x c o := by
  simp only [State.setZS, getReg_setReg_self, setReg_setReg_same, setFlags_congr _ _ _ _ hv]

/-- A result in another register and its flags: the same whatever the four arithmetic flags were. -/
theorem setResult_setReg_rsf {r : Reg} (hr : r ≠ .rsf) (q x : Word) (c o : Bool) :
    ((s.setReg .rsf v).setReg r q).setZS x c o = (s.setReg r q).setZS x c o := by
  rw [setReg_comm s hr.symm, setZS_setReg_rsf]
  simpa [hr.symm] using hv

/-- `DIV`, `REM`, `SHR` with `rsf` neither destination nor source. -/
theorem runShape_dest_setReg_rsf {op : DestOp} {d : Byte} {src : Source Byte}
    (hop : op = .div ∨ op = .rem ∨ op = .shr) (hd : d ≠ idByte .rsf) (hsrc : idByte .rsf ∉ src.ids) :
    runShape (.dest op d src) (s.setReg .rsf v) = runShape (.dest op d src) s := by
  have hds := destAndSource_setReg 8 d hsrc s v
  cases h : destAndSource 8 d src s with
  | error f =>
    rcases hop with rfl | rfl | rfl <;>
      simp only [runShape, divide, remainder, shiftRight, hds, h, bind, Except.bind]
  | ok p =>
    obtain ⟨rfl, -⟩ := destAndSource_ok h
    have hr : p.1 ≠ .rsf := mt (congrArg idByte) hd
    rcases hop with rfl | rfl | rfl <;>
      simp only [runShape, divide, remainder, shiftRight, hds, h, bind, Except.bind, getReg_setReg_ne s v hr,
        setResult_setReg_rsf hv hr]

theorem divideRem_setReg_rsf {d d2 : Byte} {src : Source Byte} (hd : d ≠ idByte .rsf) (hd2 : d2 ≠ idByte .rsf)
    (hsrc : idByte .rsf ∉ src.ids) : divideRem d d2 src (s.setReg .rsf v) = divideRem d d2 src s := by
  unfold divideRem
  rw [dvrOperands_setReg d d2 hsrc]
  cases h : dvrOperands d d2 src s with
  | error f => rfl
  | ok p =>
    obtain ⟨r, r2, sv⟩ := p
    obtain ⟨rfl, rfl, -⟩ := dvrOperands_ok h
    have hr : r ≠ .rsf := mt (congrArg idByte) hd
    have hr2 : r2 ≠ .rsf := mt (congrArg idByte) hd2
    have hv' (q : Word) : v &&& maskSticky = (s.setReg r q).getReg .rsf &&& maskSticky := by simpa [hr.symm] using hv
    simp only [bind, Except.bind, getReg_setReg_ne s v hr, setReg_comm s hr.symm, setResult_setReg_rsf (hv' _) hr2]

theorem unary_setReg_rsf (f : Word → Word) {d : Byte} (hd : d ≠ idByte .rsf) :
    unary f d (s.setReg .rsf v) = unary f d s := by
  unfold unary
  cases h : destOnly d with
  | error g => rfl
  | ok r =>
    have hr : r ≠ .rsf := mt (congrArg idByte) (destOnly_ok h ▸ hd)
    simp only [bind, Except.bind, getReg_setReg_ne s v hr, setResult_setReg_rsf hv hr]

/-- A flag-setting instruction that names `rsf` nowhere answers the same whatever the four arithmetic flags were. -/
theorem exec_setReg_rsf {i : Instr} (hf : isFlagSetting i = true) (hi : idByte .rsf ∉ i.regIds) :
    exec i (s.setReg .rsf v) = exec i s := by
  rw [← instr_shapeOf i] at hf hi
  rw [exec_eq_run, exec_eq_run]
  congr 1
  rw [regIds_shape] at hi
  generalize shapeOf i = sh at hf hi ⊢
  match sh, hf, hi with
  | .dest op d src, hf, hi =>
    simp only [List.mem_cons, not_or] at hi
    obtain ⟨hd, hsrc⟩ := hi
    exact runShape_dest_setReg_rsf hv ((isFlagSetting_dest_iff ..).1 hf) (Ne.symm hd) hsrc
  | .dvr d d2 src, _, hi =>
    simp only [List.mem_cons, not_or] at hi
    obtain ⟨hd, hd2, hsrc⟩ := hi
    exact divideRem_setReg_rsf hv (Ne.symm hd) (Ne.symm hd2) hsrc
  | .unary op d, _, hi =>
    have hd : d ≠ idByte .rsf := by simpa [eq_comm] using hi
    cases op <;> exact unary_setReg_rsf hv _ hd
  | .jump _ _, hf, _ | .write _ _, hf, _ | .hlt, hf, _ => simp [isFlagSetting] at hf

end

/-! ### `rsf` after a completed instruction -/

/-- R34: an instruction that does not name `rsf` as a destination keeps its sticky bits. -/
theorem Completion.sticky {s t : State} {i : Instr} (h : Completion s i t) (hd : idByte .rsf ∉ destIds i) :
    t.getReg .rsf &&& maskSticky = s.getReg .rsf &&& maskSticky := by
  cases h with
  | jump c o => split <;> simp
  | flagging | move | dvr | unary => simp_all
  | console | file | hlt => simp

/-- Zero and Sign after a result in a register other than `rsf` are those of that register. -/
theorem flags_setResult (s : State) {r : Reg} (hr : r ≠ .rpo) (hs : r ≠ .rsf) (v : Word) (c o : Bool) (n : Nat) :
    let t := ((s.setReg r v).setZS v c o).advance n
    t.flagZ = decide (t.getReg r = 0) ∧ t.flagS = (t.getReg r).getLsbD 63 := by
  intro t
  obtain ⟨hz, -, hn, -⟩ := setZS_status (s.setReg r v) v c o n
  have ht : t.getReg r = v := by simp [t, hr, hs]
  rw [ht]
  exact ⟨hz, hn.trans (BitVec.msb_eq_getLsbD_last v)⟩

/-- A flag-setting instruction with one destination other than `rsf` leaves Zero and Sign of the result in it. -/
theorem Completion.zero_sign {s t : State} {i : Instr} (h : Completion s i t) (hf : isFlagSetting i = true) {d : Reg}
    (hd : destIds i = [idByte d]) (hs : d ≠ .rsf) :
    t.flagZ = decide (t.getReg d = 0) ∧ t.flagS = (t.getReg d).getLsbD 63 := by
  cases h with
  | flagging op r o sv v c hop hr =>
    obtain rfl : r = d := by simpa using hd
    exact flags_setResult s hr hs v c false _
  | unary op f r hop hr =>
    obtain rfl : r = d := by simpa using hd
    exact flags_setResult s hr hs _ false false 3
  | move op w r o sv hop =>
    rcases hop with ⟨rfl, -⟩ | ⟨rfl, -⟩ | ⟨rfl, -⟩ <;> simp [isFlagSetting] at hf
  | jump | dvr | console | file | hlt => simp at hd

/-- Equal sticky bits, one by one: FileEnd and bits 63:5. -/
theorem getLsbD_of_sticky {v w : Word} (h : v &&& maskSticky = w &&& maskSticky) {k : Nat} (hk : k < 64)
    (hs : k = 2 ∨ 5 ≤ k) : v.getLsbD k = w.getLsbD k := by
  have hm : maskSticky.getLsbD k = true := by
    rw [maskSticky_getLsbD k hk, decide_eq_true_iff]; omega
  simpa [hm] using congrArg (·.getLsbD k) h

/-! ### The statements -/

/-- Settles O14: the three clauses of R41, each over the families of `Completion`. -/
theorem stepKeepsRegisterInvariants : Obligations.StepKeepsRegisterInvariants := by
  intro s t i rest hd hs
  have hc : Completion s i t := exec_completion (step_of_decode hd ▸ hs)
  exact ⟨hc.getReg_rpo, fun _ hr hf hm => hc.getReg_frame hr hf hm, hc.rpo_not_dest⟩

/-- Settles O48: the formula, the bits one by one, and `SetZS` by its definition. -/
theorem setFlagsTouchesFourBits : Obligations.SetFlagsTouchesFourBits := by
  refine ⟨fun z c n o v => ⟨setFlags_eq_shifts z c n o v, fun k hk => setFlags_getLsbD z c n o v hk⟩, ?_⟩
  intro s r c o
  have hs : r.msb = r.getLsbD 63 := BitVec.msb_eq_getLsbD_last r
  rw [State.setZS, hs, beq_eq_decide]

/-- Settles O13: preservation is the frame of a completed instruction; a flag-setting one reads nothing of the four arithmetic
flags, and writes `rsf` by `SetZS` alone. -/
theorem statusRegisterByClass : Obligations.StatusRegisterByClass := by
  intro i s t h hd
  have hc : Completion s i t := exec_completion h
  refine ⟨fun hf => hc.getReg_frame (by simp) (fun _ => hf) hd, fun hf => ⟨fun hi v hv => ?_, fun d hdd => ?_⟩, ?_⟩
  · rw [exec_setReg_rsf hv hf hi, h]
  · have hs : d ≠ .rsf := by rintro rfl; simp [hdd] at hd
    exact hc.zero_sign hf hdd hs
  · exact fun k hk hs => getLsbD_of_sticky (hc.sticky hd) hk hs

end Sys2Proof.Machine
end

section
/-!
SUPPORT. Memory access bit by bit: the word read from `n` bytes (20_memory.md R54), the bytes a word is stored as and the bytes
around them (20_memory.md R55), and that no instruction stores (20_memory.md R57).
-/

namespace Sys2Proof.Machine

/-! ### The word read -/

/-- R54: bit `8i + j` of the word read from at most eight bytes is bit `j` of the byte at `a + i`. -/
theorem leWord_readBytes_getLsbD (m : Memory) (a : Nat) {n i j : Nat} (hn : n ≤ 8) (hi : i < n) (hj : j < 8) :
    (leWord (m.readBytes a n)).getLsbD (8 * i + j) = (m.readByte (a + i)).getLsbD j := by
  rw [leWord_getLsbD _ _ _ (by simpa using hi) hj (by simpa using hn), readBytes_getElem]

/-- R54: the word read is zero above its bytes. -/
theorem leWord_readBytes_getLsbD_high (m : Memory) (a : Nat) {n k : Nat} (hk : 8 * n ≤ k) :
    (leWord (m.readBytes a n)).getLsbD k = false :=
  leWord_getLsbD_high _ _ (by simpa using hk)

/-! ### The bytes stored -/

/-- R52: bit `j` of byte `i` of a word is its bit `8i + j`. -/
theorem leBytes_getLsbD (n : Nat) (v : Word) (i j : Nat) (hi : i < (leBytes n v.toNat).length) (hj : j < 8) :
    (leBytes n v.toNat)[i].getLsbD j = v.getLsbD (8 * i + j) := by
  have hpow : 256 ^ i = 2 ^ (8 * i) := by rw [Nat.pow_mul]
  rw [leBytes_getElem, BitVec.getLsbD_ofNat, hpow, Nat.testBit_div_two_pow]
  simp [hj, BitVec.getLsbD, Nat.add_comm]

/-- R55: inside the stored range a byte reads as the one stored there. -/
theorem readByte_writeBytes_add {m : Memory} (hm : m.wf) (a : Nat) (bs : List Byte) {i : Nat} (hi : i < bs.length) :
    (m.writeBytes a bs).readByte (a + i) = bs[i] := by
  rw [readByte_writeBytes _ _ _ _ hm, dif_pos (by omega)]
  simp

/-- R55: outside the stored range every byte is as before. -/
theorem readByte_writeBytes_of_outside {m : Memory} (hm : m.wf) {a b : Nat} {bs : List Byte}
    (h : b < a ∨ a + bs.length ≤ b) : (m.writeBytes a bs).readByte b = m.readByte b := by
  rw [readByte_writeBytes _ _ _ _ hm, dif_neg (by omega)]

theorem memWrite_error {s : State} {a : Word} {n : Nat} (h : s.memSize.val < a.toNat + n) (v : Word) :
    s.memWrite a n v = .error .memoryBounds := by
  simp [State.memWrite, State.admits, Nat.not_le.2 h]

/-! ### Instructions -/

/-- R57: a completed instruction leaves memory as it was. -/
theorem Completion.mem {s t : State} {i : Instr} (h : Completion s i t) : t.mem = s.mem := by
  cases h with
  | jump => split <;> simp
  | flagging | move | dvr | unary | console | file | hlt => simp

/-! ### The statements -/

/-- Settles O49: within memory the word is that of `readBytes`, bit by bit; beyond it MemoryBounds. -/
theorem memReadIsLittleEndian : Obligations.MemReadIsLittleEndian := by
  intro s addr n hn
  have hn8 : n ≤ 8 := by simp only [List.mem_cons, List.not_mem_nil, or_false] at hn; omega
  exact ⟨memRead_error, fun hb => ⟨_, memRead_ok hb, fun _ _ => leWord_readBytes_getLsbD _ _ hn8,
    fun _ => leWord_readBytes_getLsbD_high _ _⟩⟩

/-- Settles O50: the one state MemWrite answers differs in the stored range of memory only; a completed instruction is none of
its callers. -/
theorem memWriteStoresLowBytes : Obligations.MemWriteStoresLowBytes := by
  refine ⟨fun s addr n v hm _ => ⟨fun hb => memWrite_error hb v, fun hb => ?_⟩, fun i s t h => (exec_completion h).mem⟩
  refine ⟨_, (memWrite_ok_iff ..).2 ⟨hb, rfl⟩, fun i j hi hj => ?stored, fun a ha => ?outside, rfl,
    fun _ _ => rfl, ⟨rfl, rfl, rfl⟩, writeBytes_wf _ _ _ hm⟩
  case stored =>
    have hlen : i < (leBytes n v.toNat).length := by simpa using hi
    rw [readByte_writeBytes_add hm _ _ hlen, leBytes_getLsbD _ _ _ _ _ hj]
  case outside => exact readByte_writeBytes_of_outside hm (by simpa using ha)

end Sys2Proof.Machine
end

section
/-!
SUPPORT. The length of an instruction as the row of the opcode table fixes it (30_encoding.md R83, R84).
-/

namespace Sys2Proof

open Machine

/-! ### Operand bytes of a layout -/

/-- The operand bytes a layout reads (30_encoding.md R82, R83). -/
@[simp] def Layout.size : Layout → Nat
  | .xR _ => 1
  | .xL _ => 8
  | .xRR _ => 2
  | .xRL _ => 9
  | .xRRR _ => 3
  | .xRRL _ => 10

/-- The operands of every instruction of a layout take the bytes the layout reads. -/
def Layout.Sized : Layout → Prop
  | l@(.xR mk) => ∀ a, operandBytes (mk a) = l.size
  | l@(.xL mk) => ∀ w, operandBytes (mk w) = l.size
  | l@(.xRR mk) => ∀ a b, operandBytes (mk a b) = l.size
  | l@(.xRL mk) => ∀ a w, operandBytes (mk a w) = l.size
  | l@(.xRRR mk) => ∀ a b c, operandBytes (mk a b c) = l.size
  | l@(.xRRL mk) => ∀ a b w, operandBytes (mk a b w) = l.size

/-- What a layout answers it reads from `size` bytes, which are its operands. -/
theorem Layout.Sized.parse_some {l : Layout} (hl : l.Sized) {ops rest : List Byte} {i : Instr}
    (h : l.parse ops = some (i, rest)) : operandBytes i = l.size ∧ ops.length = l.size + rest.length := by
  cases l with
  | xR mk =>
    obtain ⟨a, rfl, rfl⟩ := (parse_xR ..).1 h
    exact ⟨hl a, by simp; omega⟩
  | xL mk =>
    obtain ⟨w, rfl, rfl⟩ := (parse_xL ..).1 h
    exact ⟨hl w, by simp⟩
  | xRR mk =>
    obtain ⟨a, b, rfl, rfl⟩ := (parse_xRR ..).1 h
    exact ⟨hl a b, by simp; omega⟩
  | xRL mk =>
    obtain ⟨a, w, rfl, rfl⟩ := (parse_xRL ..).1 h
    exact ⟨hl a w, by simp; omega⟩
  | xRRR mk =>
    obtain ⟨a, b, c, rfl, rfl⟩ := (parse_xRRR ..).1 h
    exact ⟨hl a b c, by simp; omega⟩
  | xRRL mk =>
    obtain ⟨a, b, w, rfl, rfl⟩ := (parse_xRRL ..).1 h
    exact ⟨hl a b w, by simp; omega⟩

/-- R83: every row of the table has the operand bytes of its layout. -/
theorem opcodeTable_sized : ∀ r ∈ opcodeTable, r.2.Sized := by
  simp only [opcodeTable, opcodeTable_jumps, opcodeTable_division, opcodeTable_shift, opcodeTable_moves,
    opcodeTable_writes, opcodeTable_unary, List.cons_append, List.nil_append, List.forall_mem_cons, List.not_mem_nil,
    false_imp_iff, implies_true, and_true, Layout.Sized]
  and_intros <;> intros <;> rfl

theorem Layout.size_pos (l : Layout) : 0 < l.size := by cases l <;> simp

/-- R84: two opcode bytes and the operands, except for `HLT` (R92). -/
theorem length_eq_two_add_operandBytes {i : Instr} (h : i ≠ .hlt) : i.length = 2 + operandBytes i := by
  have hlen := length_shape (shapeOf i)
  rw [instr_shapeOf] at hlen
  rw [hlen, operandBytes]
  cases hsh : shapeOf i with
  | jump | write | unary => rfl
  | dest | dvr => dsimp only; omega
  | hlt => exact absurd (by rw [← instr_shapeOf i, hsh]; rfl) h

/-! ### The length the opcode bytes fix -/

/-- The length that byte 0, and byte 1 when byte 0 is `0xFF`, fix (30_encoding.md R84). -/
def opcodeLength (b : Byte) (sub : Option Byte) : Nat :=
  if b = 0xFF then 2 + ((sub.bind (lookupRow opcodeTable)).elim 0 Layout.size) else 1

/-- Byte 1 counts only when byte 0 is `0xFF`. -/
theorem opcodeLength_congr {b : Byte} {sub sub' : Option Byte} (h : b = 0xFF → sub = sub') :
    opcodeLength b sub = opcodeLength b sub' := by
  by_cases hb : b = 0xFF
  · rw [h hb]
  · rw [opcodeLength, opcodeLength, if_neg hb, if_neg hb]

/-- R84: what decodes has the length its opcode bytes fix: those bytes and the operands, all of them consumed. -/
theorem decode_length {b : Byte} {bs rest : List Byte} {i : Instr} (h : decode (b :: bs) = .ok (i, rest)) :
    i.length = opcodeLength b bs.head? ∧ i.length = (if b = 0xFF then 2 else 1) + operandBytes i ∧
      (b :: bs).length = i.length + rest.length := by
  obtain ⟨hbs, rfl⟩ | ⟨sub, ops, l, hbs, hrow, hparse⟩ := decode_ok_cases h
  · obtain ⟨rfl, rfl⟩ := List.cons.inj hbs
    exact ⟨rfl, rfl, Nat.add_comm ..⟩
  · obtain ⟨rfl, rfl⟩ := List.cons.inj hbs
    obtain ⟨hsize, hops⟩ := (opcodeTable_sized _ (lookupRow_some hrow)).parse_some hparse
    have hi : i ≠ .hlt := by rintro rfl; exact l.size_pos.ne hsize
    have hlen : i.length = 2 + operandBytes i := length_eq_two_add_operandBytes hi
    refine ⟨?fixed, hlen, ?consumed⟩
    case fixed => simp [opcodeLength, hrow, hlen, hsize]
    case consumed => simp only [List.length_cons]; omega

/-! ### The statement -/

/-- Settles O5: both lengths are the one the opcode bytes fix, and those are equal. -/
theorem lengthFixedByOpcodeBytes : Obligations.LengthFixedByOpcodeBytes := by
  intro b bs rest i h
  obtain ⟨hfixed, hopcode, hconsumed⟩ := decode_length h
  refine ⟨hopcode, hconsumed, fun bs' rest' i' h' hsub => ?_⟩
  rw [(decode_length h').1, hfixed, opcodeLength_congr hsub]

end Sys2Proof
end

section
/-!
SUPPORT. Where an instruction leaves the program counter (40_fetch_decode_operands.md R126), and the destination and divisor
checks (40_fetch_decode_operands.md R114, R122) as faults of instructions on registers.
-/

namespace Sys2Proof.Machine

/-! ### The fault of a zero divisor -/

/-- No instruction both writes to the file and divides. -/
theorem not_divisorIsZero_of_isFileWrite {i : Instr} (h : isFileWrite i = true) (s : State) : ¬ divisorIsZero i s := by
  rintro ⟨hdiv, -⟩
  unfold isFileWrite at h
  unfold isDivision at hdiv
  cases hsh : shapeOf i with
  | write op src => simp [hsh] at hdiv
  | jump | dest | dvr | unary | hlt => simp [hsh] at h

/-- R110: past the destination check a zero divisor is the fault raised; without one the instruction raises another fault of its
device or data, or completes. -/
theorem exec_of_rpo_not_dest {i : Instr} (s : State) (hw : i.WellFormed = true) (hd : (0x00 : Byte) ∉ destIds i) :
    (divisorIsZero i s ∧ exec i s = .fault .divideByZero) ∨
      (¬ divisorIsZero i s ∧ (exec i s = .fault .fileOperation ∨ exec i s = .fault .memoryBounds ∨
        ∃ t, exec i s = .next t)) := by
  have h := exec_well_formed i s hw
  rw [if_neg hd] at h
  by_cases hfile : isFileWrite i = true ∧ s.fileOpen = false
  · rw [if_pos hfile] at h
    exact .inr ⟨not_divisorIsZero_of_isFileWrite hfile.1 s, .inl h⟩
  · rw [if_neg hfile] at h
    obtain ⟨-, hz, hbounds⟩ | ⟨-, hz, hdiv⟩ | ⟨-, hz, hnext⟩ := h
    · exact .inr ⟨hz, .inr (.inl hbounds)⟩
    · exact .inl ⟨hz, hdiv⟩
    · exact .inr ⟨hz, .inr (.inr hnext)⟩

/-! ### The statements -/

/-- Settles O15: the program counter every family of `Completion` leaves. -/
theorem sequencerWritesProgramCounter : Obligations.SequencerWritesProgramCounter := by
  intro i s t h
  exact (pc_def t).trans (exec_completion h).getReg_rpo

/-- Settles O20: the destination check answers first; past it no answer is IllegalDestination. -/
theorem illegalDestinationExactly : Obligations.IllegalDestinationExactly := by
  intro i s hw
  by_cases hd : (0x00 : Byte) ∈ destIds i
  · have h := exec_well_formed i s hw
    rw [if_pos hd] at h
    exact iff_of_true h hd
  · refine iff_of_false ?_ hd
    obtain ⟨-, h⟩ | ⟨-, h | h | ⟨t, h⟩⟩ := exec_of_rpo_not_dest s hw hd <;> simp [h]

/-- Settles O23: past the destination check DivideByZero is the answer to a zero divisor, and no other answer is it. -/
theorem divideByZeroExactly : Obligations.DivideByZeroExactly := by
  intro i s hw hd
  obtain ⟨hz, h⟩ | ⟨hz, h⟩ := exec_of_rpo_not_dest s hw hd
  · exact iff_of_true h hz
  · refine iff_of_false ?_ hz
    obtain h | h | ⟨t, h⟩ := h <;> simp [h]

end Sys2Proof.Machine
end

section
/-!
SUPPORT. The device check of `WFN` and `WFB` as a fault of instructions on registers (40_fetch_decode_operands.md R115,
60_exceptions.md R245).
-/

namespace Sys2Proof.Machine

/-- `WFN` and `WFB` have no destination operand, so that the destination check never answers before the device check. -/
theorem destIds_of_isFileWrite {i : Instr} (h : isFileWrite i = true) : destIds i = [] := by
  unfold isFileWrite at h
  unfold destIds
  cases hsh : shapeOf i with
  | write op src => rfl
  | jump | dest | dvr | unary | hlt => simp [hsh] at h

/-- Settles O22: the device check answers next after the destination check, which does not apply to a file write; past both no
answer is FileOperation. -/
theorem fileOperationExactly : Obligations.FileOperationExactly := by
  intro i s hw
  have h := exec_well_formed i s hw
  by_cases hfile : isFileWrite i = true ∧ s.fileOpen = false
  · have hd : (0x00 : Byte) ∉ destIds i := by simp [destIds_of_isFileWrite hfile.1]
    rw [if_neg hd, if_pos hfile] at h
    exact iff_of_true h hfile
  · refine iff_of_false ?_ hfile
    rw [if_neg hfile] at h
    split at h
    · simp [h]
    · obtain ⟨-, -, h⟩ | ⟨-, -, h⟩ | ⟨-, -, t, h⟩ := h <;> simp [h]

end Sys2Proof.Machine
end

section
/-!
SUPPORT. The decoder against the encoder: each layout reads back what it is written as, and every row of the opcode table is
encoded under its own sub-opcode (30_encoding.md R83 to R94).
-/

namespace Sys2Proof

open Machine

/-! ### The decoder on an encoded layout -/

section
variable {b : Byte} (rest : List Byte)

theorem decode_xR {mk : Byte → Instr} (h : lookupRow opcodeTable b = some (.xR mk)) (a : Byte) :
    decode ([0xFF, b, a] ++ rest) = .ok (mk a, rest) :=
  decode_extended b _ _ _ h ((parse_xR ..).2 ⟨a, rfl, rfl⟩)

theorem decode_xL {mk : Word → Instr} (h : lookupRow opcodeTable b = some (.xL mk)) (w : Word) :
    decode ([0xFF, b] ++ leBytes 8 w.toNat ++ rest) = .ok (mk w, rest) :=
  decode_extended b _ _ _ h ((parse_xL ..).2 ⟨w, rfl, rfl⟩)

theorem decode_xRR {mk : Byte → Byte → Instr} (h : lookupRow opcodeTable b = some (.xRR mk)) (a c : Byte) :
    decode ([0xFF, b, a, c] ++ rest) = .ok (mk a c, rest) :=
  decode_extended b _ _ _ h ((parse_xRR ..).2 ⟨a, c, rfl, rfl⟩)

theorem decode_xRL {mk : Byte → Word → Instr} (h : lookupRow opcodeTable b = some (.xRL mk)) (a : Byte) (w : Word) :
    decode ([0xFF, b, a] ++ leBytes 8 w.toNat ++ rest) = .ok (mk a w, rest) :=
  decode_extended b _ _ _ h ((parse_xRL ..).2 ⟨a, w, rfl, rfl⟩)

theorem decode_xRRR {mk : Byte → Byte → Byte → Instr} (h : lookupRow opcodeTable b = some (.xRRR mk)) (a c d : Byte) :
    decode ([0xFF, b, a, c, d] ++ rest) = .ok (mk a c d, rest) :=
  decode_extended b _ _ _ h ((parse_xRRR ..).2 ⟨a, c, d, rfl, rfl⟩)

theorem decode_xRRL {mk : Byte → Byte → Word → Instr} (h : lookupRow opcodeTable b = some (.xRRL mk)) (a c : Byte)
    (w : Word) : decode ([0xFF, b, a, c] ++ leBytes 8 w.toNat ++ rest) = .ok (mk a c w, rest) :=
  decode_extended b _ _ _ h ((parse_xRRL ..).2 ⟨a, c, w, rfl, rfl⟩)

end

/-! ### The encoder on a row of the table -/

/-- Every instruction of the layout is encoded as `0xFF`, the sub-opcode and its operands, operand 1 first. -/
def Layout.EncodedUnder (sub : Byte) : Layout → Prop
  | .xR mk => ∀ a, encode (mk a) = [0xFF, sub, a]
  | .xL mk => ∀ w, encode (mk w) = [0xFF, sub] ++ leBytes 8 w.toNat
  | .xRR mk => ∀ a b, encode (mk a b) = [0xFF, sub, a, b]
  | .xRL mk => ∀ a w, encode (mk a w) = [0xFF, sub, a] ++ leBytes 8 w.toNat
  | .xRRR mk => ∀ a b c, encode (mk a b c) = [0xFF, sub, a, b, c]
  | .xRRL mk => ∀ a b w, encode (mk a b w) = [0xFF, sub, a, b] ++ leBytes 8 w.toNat

/-- R88: the sub-opcode of a row is the one its instructions are encoded with. -/
theorem opcodeTable_encodedUnder : ∀ r ∈ opcodeTable, r.2.EncodedUnder r.1 := by
  simp only [opcodeTable, opcodeTable_jumps, opcodeTable_division, opcodeTable_shift, opcodeTable_moves,
    opcodeTable_writes, opcodeTable_unary, List.cons_append, List.nil_append, List.forall_mem_cons, List.not_mem_nil,
    false_imp_iff, implies_true, and_true, Layout.EncodedUnder]
  and_intros <;> intros <;> rfl

/-- What a layout reads is the operand bytes of what it answers. -/
theorem Layout.EncodedUnder.parse_some {sub : Byte} {l : Layout} (hl : l.EncodedUnder sub) {ops rest : List Byte}
    {i : Instr} (h : l.parse ops = some (i, rest)) : 0xFF :: sub :: ops = encode i ++ rest := by
  cases l with
  | xR mk => obtain ⟨a, rfl, rfl⟩ := (parse_xR ..).1 h; rw [hl a]; rfl
  | xL mk => obtain ⟨w, rfl, rfl⟩ := (parse_xL ..).1 h; rw [hl w]; rfl
  | xRR mk => obtain ⟨a, b, rfl, rfl⟩ := (parse_xRR ..).1 h; rw [hl a b]; rfl
  | xRL mk => obtain ⟨a, w, rfl, rfl⟩ := (parse_xRL ..).1 h; rw [hl a w]; rfl
  | xRRR mk => obtain ⟨a, b, c, rfl, rfl⟩ := (parse_xRRR ..).1 h; rw [hl a b c]; rfl
  | xRRL mk => obtain ⟨a, b, w, rfl, rfl⟩ := (parse_xRRL ..).1 h; rw [hl a b w]; rfl

/-! ### Unassigned sub-opcodes -/

/-- R91: the sub-opcodes without a row are those of the ranges. -/
theorem lookupRow_isNone : ∀ b : Byte, (lookupRow opcodeTable b).isNone = unassignedSub b := by decide

/-- After `0xFF` the decoder answers an invalid opcode exactly where the table has no row: an assigned sub-opcode can fail only
for want of operand bytes. -/
theorem decode_extended_invalid_iff (b : Byte) (ops : List Byte) :
    decode (0xFF :: b :: ops) = .error .invalidOpcode ↔ lookupRow opcodeTable b = none := by
  cases hrow : lookupRow opcodeTable b with
  | none => exact iff_of_true (decode_extended_none ops hrow) rfl
  | some l =>
    refine iff_of_false ?_ nofun
    cases hparse : l.parse ops with
    | none => rw [decode_extended_short hrow hparse]; nofun
    | some r => rw [decode_extended b ops l r hrow hparse]; nofun

/-! ### The statements -/

/-- Settles O1: by the layout of the row each instruction has in the table. -/
theorem decodeReadsBackEncode : Obligations.DecodeReadsBackEncode := by
  intro i rest
  cases i with
  | jltP t | jleP t | jgtP t | jgeP t | jsiP t | jnsP t | jovP t | jnoP t => exact decode_xR rest rfl t
  | jltA t | jleA t | jgtA t | jgeA t | jsiA t | jnsA t | jovA t | jnoA t => exact decode_xL rest rfl t
  | divR d s | divP d s | remR d s | remP d s | shrR d s | shrP d s => exact decode_xRR rest rfl d s
  | divL d s | divA d s | remL d s | remA d s | shrL d s | shrA d s => exact decode_xRL rest rfl d s
  | dvrR d d2 s | dvrP d d2 s => exact decode_xRRR rest rfl d d2 s
  | dvrL d d2 s | dvrA d d2 s => exact decode_xRRL rest rfl d d2 s
  | mvbR d s | mvbP d s | mvwR d s | mvwP d s | mvdR d s | mvdP d s => exact decode_xRR rest rfl d s
  | mvbL d s | mvbA d s | mvwL d s | mvwA d s | mvdL d s | mvdA d s => exact decode_xRL rest rfl d s
  | wcnR s | wcnP s | wcbR s | wcbP s | wfnR s | wfnP s | wfbR s | wfbP s => exact decode_xR rest rfl s
  | wcnL s | wcnA s | wcbL s | wcbA s | wfnL s | wfnA s | wfbL s | wfbA s => exact decode_xL rest rfl s
  | exb d | exw d | exd d | neg d => exact decode_xR rest rfl d
  | hlt => rfl

/-- Settles O2: bytes that decode are `HLT`'s, or a row of the table and the operands its layout reads. -/
theorem encodeRebuildsDecoded : Obligations.EncodeRebuildsDecoded := by
  intro bs rest i h
  obtain ⟨rfl, rfl⟩ | ⟨sub, ops, l, rfl, hrow, hparse⟩ := decode_ok_cases h
  · rfl
  · exact (opcodeTable_encodedUnder _ (lookupRow_some hrow)).parse_some hparse

/-- Settles O3: each word is the encoding of its instruction. -/
theorem workedExamplesDecode : Obligations.WorkedExamplesDecode :=
  ⟨decodeReadsBackEncode (.jltA 0x100) [], decodeReadsBackEncode (.dvrL 0x06 0x07 7) [],
    decodeReadsBackEncode (.shrR 0x0D 0x0E) [], decodeReadsBackEncode (.mvwA 0x06 0x40) [],
    decodeReadsBackEncode (.wcnR 0x06) [], decodeReadsBackEncode (.exb 0x09) [],
    decodeReadsBackEncode (.neg 0x06) [], decodeReadsBackEncode .hlt []⟩

/-- Settles O4: the first byte selects no page, or the sub-opcode no row. -/
theorem unassignedOpcodesRejected : Obligations.UnassignedOpcodesRejected := by
  intro b ops
  refine ⟨decode_other ops, ?_⟩
  rw [decode_extended_invalid_iff, ← Option.isNone_iff_eq_none, lookupRow_isNone]

end Sys2Proof
end

section
/-!
SUPPORT. The decimal text of a signed integer: its digits, their value and their number (46_signed_write.md R200).
-/

namespace Sys2Proof.Machine

/-! ### One digit -/

@[simp] theorem digitByte_toNat (n : Nat) : (digitByte n).toNat = 0x30 + n % 10 := by
  rw [digitByte, BitVec.toNat_ofNat]; omega

theorem digitByte_ne_minus (n : Nat) : digitByte n ≠ 0x2D := by
  intro h
  have h' : 0x30 + n % 10 = 0x2D := (digitByte_toNat n).symm.trans (congrArg BitVec.toNat h)
  omega

theorem digitByte_eq_zero_iff {n : Nat} (h : n < 10) : digitByte n = 0x30 ↔ n = 0 := by
  rw [← BitVec.toNat_inj, digitByte_toNat]
  show 0x30 + n % 10 = 0x30 ↔ n = 0
  omega

/-! ### The digits of a natural number -/

/-- Every byte of the digits is a digit. -/
theorem mem_decDigits {fuel n : Nat} {b : Byte} (h : b ∈ decDigits fuel n) : ∃ k, b = digitByte k := by
  induction fuel generalizing n with
  | zero => exact ⟨n, List.mem_singleton.1 h⟩
  | succ fuel ih =>
    rw [decDigits] at h
    split at h
    · exact ⟨n, List.mem_singleton.1 h⟩
    · obtain h | h := List.mem_append.1 h
      · exact ih h
      · exact ⟨n, List.mem_singleton.1 h⟩

/-- No leading zero: the first digit is 0 for 0 alone. -/
theorem decDigits_eq_cons {fuel n : Nat} (h : n < 10 ^ (fuel + 1)) :
    ∃ k ds, decDigits fuel n = digitByte k :: ds ∧ k < 10 ∧ (k = 0 ↔ n = 0) := by
  induction fuel generalizing n with
  | zero => exact ⟨n, [], rfl, h, Iff.rfl⟩
  | succ fuel ih =>
    rw [decDigits]
    split
    · exact ⟨n, [], rfl, ‹_›, Iff.rfl⟩
    · obtain ⟨k, ds, hds, hk, hk0⟩ := ih (n := n / 10) (by rw [pow_succ] at h; omega)
      exact ⟨k, ds ++ [digitByte n], by rw [hds]; rfl, hk, by omega⟩

theorem digitsValue_append (xs ys : List Byte) (acc : Nat) :
    digitsValue acc (xs ++ ys) = digitsValue (digitsValue acc xs) ys := by
  induction xs generalizing acc with
  | nil => rfl
  | cons x xs ih => exact ih _

theorem digitsValue_digitByte (acc n : Nat) : digitsValue acc [digitByte n] = 10 * acc + n % 10 := by
  show 10 * acc + ((digitByte n).toNat - 0x30) = _
  rw [digitByte_toNat, Nat.add_sub_cancel_left]

/-- With fuel for every digit the digits read back to the number. -/
theorem digitsValue_decDigits {fuel n : Nat} (h : n < 10 ^ (fuel + 1)) : digitsValue 0 (decDigits fuel n) = n := by
  induction fuel generalizing n with
  | zero => rw [decDigits, digitsValue_digitByte]; omega
  | succ fuel ih =>
    rw [decDigits]
    split
    · rw [digitsValue_digitByte]; omega
    · have hq : digitsValue 0 (decDigits fuel (n / 10)) = n / 10 := ih (by rw [pow_succ] at h; omega)
      rw [digitsValue_append, hq, digitsValue_digitByte]
      omega

theorem decDigits_length_le {fuel k n : Nat} (h : n < 10 ^ (k + 1)) : (decDigits fuel n).length ≤ k + 1 := by
  induction fuel generalizing k n with
  | zero => simp [decDigits]
  | succ fuel ih =>
    rw [decDigits]
    split
    · simp
    · cases k with
      | zero => omega
      | succ k =>
        have hq : (decDigits fuel (n / 10)).length ≤ k + 1 := ih (by rw [pow_succ] at h; omega)
        simpa using hq

/-! ### The text -/

/-- The digits of a magnitude are read without a sign. -/
theorem digitsOf_digitByte_cons (k : Nat) (ds : List Byte) : digitsOf (digitByte k :: ds) = digitByte k :: ds :=
  if_neg (digitByte_ne_minus k)

theorem decimalValue_digitByte_cons (k : Nat) (ds : List Byte) :
    decimalValue (digitByte k :: ds) = digitsValue 0 (digitByte k :: ds) :=
  if_neg (digitByte_ne_minus k)

/-- A text is `-` and the digits of the magnitude, or those digits alone. -/
theorem decSigned_cases (z : Int) :
    (z < 0 ∧ decSigned z = 0x2D :: decDigits 20 z.natAbs) ∨ (0 ≤ z ∧ decSigned z = decDigits 20 z.natAbs) := by
  rw [decSigned]; split
  · exact .inl ⟨‹_›, rfl⟩
  · exact .inr ⟨not_lt.1 ‹_›, rfl⟩

/-- Every byte of a decimal text is `-` or a digit. -/
theorem isDecimalByte_of_mem_decSigned {z : Int} {b : Byte} (h : b ∈ decSigned z) : isDecimalByte b = true := by
  have digit {b : Byte} (h : b ∈ decDigits 20 z.natAbs) : isDecimalByte b = true := by
    obtain ⟨k, rfl⟩ := mem_decDigits h
    simp only [isDecimalByte, digitByte_toNat, Bool.or_eq_true, Bool.and_eq_true, decide_eq_true_eq]
    omega
  obtain ⟨-, hz⟩ | ⟨-, hz⟩ := decSigned_cases z
  · rw [hz] at h
    obtain rfl | h := List.mem_cons.1 h
    · rfl
    · exact digit h
  · exact digit (hz ▸ h)

/-- What stands before and in the digits of the text of `z`, whose magnitude is short enough. -/
theorem decSigned_sign_digits {z : Int} (h : z.natAbs < 10 ^ 19) :
    digitsOf (decSigned z) = decDigits 20 z.natAbs ∧ decimalValue (decSigned z) = z ∧
      ((decSigned z).head? = some 0x2D ↔ z < 0) ∧ 1 ≤ (decSigned z).length ∧ (decSigned z).length ≤ 20 := by
  have hvalue : digitsValue 0 (decDigits 20 z.natAbs) = z.natAbs := digitsValue_decDigits (by omega)
  have hlength : (decDigits 20 z.natAbs).length ≤ 19 := decDigits_length_le h
  obtain ⟨k, ds, hds, -⟩ := decDigits_eq_cons (fuel := 20) (n := z.natAbs) (by omega)
  obtain ⟨hneg, hz⟩ | ⟨hpos, hz⟩ := decSigned_cases z <;> rw [hz]
  · refine ⟨rfl, ?_, iff_of_true rfl hneg, by simp, by simp; omega⟩
    show -(digitsValue 0 (decDigits 20 z.natAbs) : Int) = z
    omega
  · rw [hds] at hvalue hlength ⊢
    refine ⟨digitsOf_digitByte_cons k ds, ?_, iff_of_false ?_ (not_lt.2 hpos), by simp, by omega⟩
    · rw [decimalValue_digitByte_cons]; omega
    · simpa using digitByte_ne_minus k

/-! ### The statement -/

/-- Settles O45: the text is `-` exactly for the negative and then the digits of the magnitude, which read back to it and begin
with 0 for 0 alone. -/
theorem decimalTextReadsBack : Obligations.DecimalTextReadsBack := by
  refine ⟨rfl, fun z hlow hhigh => ?_⟩
  obtain ⟨hdigits, hvalue, hsign, hpos, hlength⟩ := decSigned_sign_digits (z := z) (by omega)
  obtain ⟨k, ds, hds, hk, hk0⟩ := decDigits_eq_cons (fuel := 20) (n := z.natAbs) (by omega)
  refine ⟨hvalue, hpos, hlength, hsign, fun b hb => ?isDigit, ?leadingZero⟩
  case isDigit =>
    obtain ⟨j, rfl⟩ := mem_decDigits (hdigits ▸ hb)
    rw [digitByte_toNat]
    omega
  case leadingZero =>
    rw [hdigits, hds, List.head?_cons, Option.some_inj, digitByte_eq_zero_iff hk, hk0, Int.natAbs_eq_zero]

end Sys2Proof.Machine
end

section
/-!
SUPPORT. What every completed step leaves of memory, inputs and sinks, and how it ends (00_scope.md R10, 20_memory.md R57,
50_interfaces.md R224 to R226, 70_reset_and_hazards.md R270).
-/

namespace Sys2Proof.Machine

/-! ### The step -/

/-- A completed step is the completion of the instruction fetched. -/
theorem step_completion {s t : State} (h : step s = .next t) : ∃ i, s.fetch = .ok i ∧ Completion s i t := by
  obtain ⟨i, rest, hd, hx⟩ := step_next h
  exact ⟨i, by simp [State.fetch, hd], exec_completion hx⟩

theorem step_of_fetch {s : State} {i : Instr} (h : s.fetch = .ok i) : step s = exec i s := by
  simp [step, h]

theorem step_of_fetch_error {s : State} {f : Fault} (h : s.fetch = .error f) : step s = .fault f := by
  simp [step, h, raise]

/-- Every instruction has a meaning: it completes or faults. -/
theorem exec_next_or_fault (i : Instr) (s : State) : (∃ t, exec i s = .next t) ∨ ∃ f, exec i s = .fault f := by
  rw [exec_eq_run]
  cases runShape (shapeOf i) s with
  | ok t => exact .inl ⟨t, rfl⟩
  | error f => exact .inr ⟨f, rfl⟩

theorem step_next_or_fault (s : State) : (∃ t, step s = .next t) ∨ ∃ f, step s = .fault f := by
  cases h : s.fetch with
  | ok i => rw [step_of_fetch h]; exact exec_next_or_fault i s
  | error f => exact .inr ⟨f, step_of_fetch_error h⟩

theorem exec_hlt (s : State) : exec .hlt s = .next (s.commitPc (s.pc + 1) .halted) := by
  rw [exec_next_iff]; rfl

/-! ### What is left of each field -/

section
variable {s t : State} {i : Instr} (h : Completion s i t)
include h

/-- R210: no instruction but `HLT` reports a halt. -/
theorem Completion.report_next (hi : i ≠ .hlt) : t.report = .next := by
  cases h with
  | jump => split <;> simp
  | flagging | move | dvr | unary | console | file => simp
  | hlt => exact absurd rfl hi

theorem Completion.memSize_eq : t.memSize = s.memSize := by
  cases h with
  | jump => split <;> simp
  | flagging | move | dvr | unary | console | file | hlt => simp

theorem Completion.fileOpen_eq : t.fileOpen = s.fileOpen := by
  cases h with
  | jump => split <;> simp
  | flagging | move | dvr | unary | console | file | hlt => simp

/-- The console is left as it was or holds one more decimal text. -/
theorem Completion.consoleOut_cases : t.consoleOut = s.consoleOut ∨ ∃ z, t.consoleOut = s.consoleOut ++ decSigned z := by
  cases h with
  | console => exact .inr ⟨_, rfl⟩
  | jump => left; split <;> simp
  | flagging | move | dvr | unary | file | hlt => left; simp

/-- The file is left as it was or holds one more decimal text. -/
theorem Completion.fileOut_cases : t.fileOut = s.fileOut ∨ ∃ z, t.fileOut = s.fileOut ++ decSigned z := by
  cases h with
  | file => exact .inr ⟨_, rfl⟩
  | jump => left; split <;> simp
  | flagging | move | dvr | unary | console | hlt => left; simp

/-- R29: a flag-setting instruction leaves Overflow clear, and Carry set only if it is `SHR`. -/
theorem Completion.overflow_carry (hf : isFlagSetting i = true) :
    t.flagO = false ∧ (t.flagC = true → ∃ d src, shapeOf i = .dest .shr d src) := by
  cases h with
  | flagging op r o sv v c hop hr hv hc =>
    obtain ⟨-, hcarry, -, hoverflow, -⟩ := setZS_status (s.setReg r v) v c false (3 + o.size)
    refine ⟨hoverflow, fun ht => ⟨idByte r, o.raw, ?_⟩⟩
    rw [shapeOf_instr, hc (hcarry.symm.trans ht)]
  | dvr r r2 o sv q m =>
    obtain ⟨-, hcarry, -, hoverflow, -⟩ := setZS_status ((s.setReg r q).setReg r2 m) q false false (4 + o.size)
    exact ⟨hoverflow, fun ht => absurd (hcarry.symm.trans ht) nofun⟩
  | unary op f r =>
    obtain ⟨-, hcarry, -, hoverflow, -⟩ := setZS_status (s.setReg r (f (s.getReg r))) (f (s.getReg r)) false false 3
    exact ⟨hoverflow, fun ht => absurd (hcarry.symm.trans ht) nofun⟩
  | move op w r o sv hop =>
    rcases hop with ⟨rfl, -⟩ | ⟨rfl, -⟩ | ⟨rfl, -⟩ <;> simp [isFlagSetting] at hf
  | jump | console | file => simp [isFlagSetting] at hf
  | hlt => nomatch hf

end

/-- Decimal text after decimal text is decimal text. -/
theorem isDecimalByte_append {old new : List Byte} (hold : ∀ b ∈ old, isDecimalByte b = true)
    (h : new = old ∨ ∃ z, new = old ++ decSigned z) : ∀ b ∈ new, isDecimalByte b = true := by
  obtain rfl | ⟨z, rfl⟩ := h
  · exact hold
  · exact List.forall_mem_append.2 ⟨hold, fun _ => isDecimalByte_of_mem_decSigned⟩

/-! ### The statements -/

/-- Settles O10: no completed instruction writes memory. -/
theorem stepKeepsCanonicalMemory : Obligations.StepKeepsCanonicalMemory := by
  intro s t hinv hs
  obtain ⟨i, -, hc⟩ := step_completion hs
  rwa [MemoryInv, hc.mem, hc.memSize_eq]

/-- Settles O11: what a completed instruction appends to a sink is the decimal text of an integer. -/
theorem stepKeepsSinksDecimal : Obligations.StepKeepsSinksDecimal := by
  rintro s t ⟨hconsole, hfile⟩ hs
  obtain ⟨i, -, hc⟩ := step_completion hs
  exact ⟨isDecimalByte_append hconsole hc.consoleOut_cases, isDecimalByte_append hfile hc.fileOut_cases⟩

/-- Settles O7: by what was fetched; only the completion of `HLT` reports the halt. -/
theorem stepHasThreeOutcomes : Obligations.StepHasThreeOutcomes := by
  intro s
  by_cases hhlt : s.fetch = .ok .hlt
  · exact .inr (.inl ⟨_, (step_of_fetch hhlt).trans (exec_hlt s), rfl, hhlt⟩)
  · obtain ⟨t, hs⟩ | ⟨f, hs⟩ := step_next_or_fault s
    · obtain ⟨i, hi, hc⟩ := step_completion hs
      have hne : i ≠ .hlt := fun e => hhlt (e ▸ hi)
      exact .inl ⟨t, hs, hc.report_next hne, hhlt⟩
    · exact .inr (.inr ⟨f, hs, hhlt⟩)

/-- Settles O16: the three fields in every family of `Completion`. -/
theorem stepLeavesMemoryAndInputs : Obligations.StepLeavesMemoryAndInputs := by
  intro s t hs
  obtain ⟨i, -, hc⟩ := step_completion hs
  exact ⟨hc.mem, hc.memSize_eq, hc.fileOpen_eq⟩

/-- Settles O19: `SetZS` is called with Overflow 0, and with a Carry other than 0 by `SHR` alone. -/
theorem overflowClearedCarryOnlyByShr : Obligations.OverflowClearedCarryOnlyByShr :=
  fun _ _ _ h hf => (exec_completion h).overflow_carry hf

/-- Settles O51: the register file is sixteen zeros and memory lists no cell. -/
theorem constructZeroesEverything : Obligations.ConstructZeroesEverything := by
  have hreg (n : MemSize) (r : Reg) : (State.construct n).getReg r = 0 := by simp [State.getReg, State.construct]
  exact ⟨fun n => ⟨hreg n, hreg n .rpo, fun _ => rfl, rfl⟩, ⟨_, rfl⟩,
    fun s t hs => (stepLeavesMemoryAndInputs s t hs).2.1⟩

/-- Settles O12: at reset memory lists no cell and both sinks are empty. -/
theorem resetMeetsInvariants : Obligations.ResetMeetsInvariants :=
  ⟨⟨reset_memory_wf, List.forall_mem_nil _⟩, List.forall_mem_nil _, List.forall_mem_nil _⟩

/-- Settles O46: `HLT` is one commit of the program counter. -/
theorem hltHalts : Obligations.HltHalts := by
  intro s
  refine ⟨_, exec_hlt s, rfl, by simp [pc_def], fun r hr => ?_, ⟨fun _ => rfl, rfl⟩, rfl, rfl, rfl⟩
  rw [commitPc_getReg, if_neg (by simpa using hr)]

end Sys2Proof.Machine
end

section
/-!
SUPPORT. An instruction as what it reads and what it writes: `Shape.effect` resolves operands and computes everything that will
be written, `Effect.apply` writes it. Two states that look alike where an instruction reads give one effect, so that what no
instruction reads (the sinks, `report`, an unnamed `rsf`) has no influence on it (10_state.md R32, 50_interfaces.md R224, R225).
-/

namespace Sys2Proof.Machine

/-! ### Effects -/

/-- All that a completed instruction writes: registers in order, a result for `SetZS` with its Carry, text for the two sinks, and
the program counter with the outcome. -/
structure Effect where
  writes : List (Reg × Word) := []
  status : Option (Word × Bool) := none
  console : List Byte := []
  file : List Byte := []
  target : Word
  how : StepReport := .next

/-- Registers written in order. -/
def State.setRegs (s : State) (writes : List (Reg × Word)) : State := writes.foldl (fun s w => s.setReg w.1 w.2) s

/-- `SetZS` with Overflow 0, or nothing. -/
def State.setStatus (s : State) : Option (Word × Bool) → State
  | none => s
  | some (v, c) => s.setZS v c false

/-- The state with an effect written. -/
def Effect.apply (e : Effect) (s : State) : State :=
  ((((s.setRegs e.writes).setStatus e.status).consoleWrite e.console).fileWrite e.file).commitPc e.target e.how

/-- Result of `OP d, s` from the old value of `d` and the source, and its Carry if the mnemonic sets flags. -/
def DestOp.result (op : DestOp) (old sv : Word) : Except Fault (Word × Option Bool) :=
  match op with
  | .div => (quotRem old sv).map fun p => (p.1, some false)
  | .rem => (quotRem old sv).map fun p => (p.2, some false)
  | .shr => .ok (sar old sv, some (shrCarry old sv))
  | .mvb => .ok (sext 8 sv, none)
  | .mvw => .ok (sext 16 sv, none)
  | .mvd => .ok (sext 32 sv, none)

/-- Result of `OP d` from the old value of `d`. -/
def UnaryOp.fn : UnaryOp → Word → Word
  | .exb => sext 8
  | .exw => sext 16
  | .exd => sext 32
  | .neg => negate

/-- Bits of the source that a decimal write shows (46_signed_write.md R201). -/
def WriteOp.width : WriteOp → Nat
  | .wcn | .wfn => 64
  | .wcb | .wfb => 8

/-- What an instruction writes, or the fault it raises. -/
def Shape.effect : Shape → State → Except Fault Effect
  | .jump c t, s => t.check.map fun o =>
      { target := if c.holds s.flagS s.flagO s.flagZ then o.offset s else s.pc + BitVec.ofNat 64 (2 + t.size) }
  | .dest op d src, s => (destAndSource op.bytes d src s).bind fun p =>
      (op.result (s.getReg p.1) p.2).map fun q =>
        { writes := [(p.1, q.1)], status := q.2.map fun c => (q.1, c), target := s.pc + BitVec.ofNat 64 (3 + src.size) }
  | .dvr d d2 src, s => (dvrOperands d d2 src s).bind fun p =>
      (quotRem (s.getReg p.1) p.2.2).map fun q =>
        { writes := [(p.1, q.1), (p.2.1, q.2)], status := some (q.1, false),
          target := s.pc + BitVec.ofNat 64 (4 + src.size) }
  | .unary op d, s => (destOnly d).map fun r =>
      { writes := [(r, op.fn (s.getReg r))], status := some (op.fn (s.getReg r), false),
        target := s.pc + BitVec.ofNat 64 3 }
  | .write op src, s => src.check.bind fun o => (if op.toFile then checkFile s else .ok ()).bind fun _ =>
      (o.value s op.bytes).map fun sv =>
        { console := if op.toFile then [] else decSigned (signedLow op.width sv),
          file := if op.toFile then decSigned (signedLow op.width sv) else [],
          target := s.pc + BitVec.ofNat 64 (2 + src.size) }
  | .hlt, s => .ok { target := s.pc + 1, how := .halted }

/-! ### The updates of the state that effects are -/

@[simp] theorem consoleWrite_nil (s : State) : s.consoleWrite [] = s := by simp [State.consoleWrite]
@[simp] theorem fileWrite_nil (s : State) : s.fileWrite [] = s := by simp [State.fileWrite]

theorem pc_setReg (s : State) {r : Reg} (hr : r ≠ .rpo) (v : Word) : (s.setReg r v).pc = s.pc :=
  getReg_setReg_ne s v hr.symm
@[simp] theorem pc_setZS (s : State) (v : Word) (c o : Bool) : (s.setZS v c o).pc = s.pc := by simp [pc_def]

section
variable (s : State) {r r2 : Reg} (v q m : Word) (c : Bool) (n : Nat) (text : List Byte)

theorem apply_result (hr : r ≠ .rpo) :
    Effect.apply { writes := [(r, v)], status := some (v, c), target := s.pc + BitVec.ofNat 64 n } s =
      ((s.setReg r v).setZS v c false).advance n := by
  simp [Effect.apply, State.setRegs, State.setStatus, State.advance, pc_setReg s hr]

theorem apply_move (hr : r ≠ .rpo) :
    Effect.apply { writes := [(r, v)], target := s.pc + BitVec.ofNat 64 n } s = (s.setReg r v).advance n := by
  simp [Effect.apply, State.setRegs, State.setStatus, State.advance, pc_setReg s hr]

theorem apply_two_results (hr : r ≠ .rpo) (hr2 : r2 ≠ .rpo) :
    Effect.apply { writes := [(r, q), (r2, m)], status := some (q, c), target := s.pc + BitVec.ofNat 64 n } s =
      (((s.setReg r q).setReg r2 m).setZS q c false).advance n := by
  simp [Effect.apply, State.setRegs, State.setStatus, State.advance, pc_setReg _ hr, pc_setReg _ hr2]

theorem apply_console : Effect.apply { console := text, target := s.pc + BitVec.ofNat 64 n } s =
    (s.consoleWrite text).advance n := by
  rw [Effect.apply, fileWrite_nil]; rfl

theorem apply_file : Effect.apply { file := text, target := s.pc + BitVec.ofNat 64 n } s =
    (s.fileWrite text).advance n := by
  simp only [Effect.apply, consoleWrite_nil]; rfl

theorem apply_commit (target : Word) (how : StepReport) :
    Effect.apply { target := target, how := how } s = s.commitPc target how := by
  simp [Effect.apply, State.setRegs, State.setStatus]

end

/-! ### The meaning of every instruction is its effect, applied -/

theorem runShape_unary (op : UnaryOp) (d : Byte) (s : State) : runShape (.unary op d) s = unary op.fn d s := by
  cases op <;> rfl

theorem runShape_write (op : WriteOp) (src : Source Byte) (s : State) :
    runShape (.write op src) s = if op.toFile then writeFile op.width src s else writeConsole op.width src s := by
  cases op <;> rfl

theorem WriteOp.width_div_eight (op : WriteOp) : op.width / 8 = op.bytes := by cases op <;> rfl

theorem runShape_jump_eq_effect (c : Cond) (tgt : Target Byte) (s : State) :
    runShape (.jump c tgt) s = ((Shape.jump c tgt).effect s).map (·.apply s) := by
  cases h : tgt.check with
  | error f => simp only [runShape, jump, Shape.effect, h]; rfl
  | ok o =>
    obtain rfl := (target_check_ok_iff _ _).1 h
    simp only [runShape, jump_raw, cond_fn, Shape.effect, h, Except.map, apply_commit, target_size_raw]
    split <;> rfl

theorem runShape_dest_eq_effect (op : DestOp) (d : Byte) (src : Source Byte) (s : State) :
    runShape (.dest op d src) s = ((Shape.dest op d src).effect s).map (·.apply s) := by
  cases h : destAndSource op.bytes d src s with
  | error f =>
    simp only [Shape.effect, h]
    cases op <;> rw [DestOp.bytes] at h <;> simp only [runShape, divide, remainder, shiftRight, move, h] <;> rfl
  | ok p =>
    obtain ⟨r, sv⟩ := p
    obtain ⟨-, hr, -⟩ := destAndSource_ok h
    simp only [Shape.effect, h, Except.bind]
    cases op with
    | div | rem =>
      rw [DestOp.bytes] at h
      cases hq : quotRem (s.getReg r) sv with
      | error f => simp only [runShape, divide, remainder, DestOp.result, h, bind, Except.bind, hq]; rfl
      | ok q =>
        simp only [runShape, divide, remainder, DestOp.result, h, bind, Except.bind, hq, Except.map, Option.map,
          apply_result s _ _ _ hr]
        rfl
    | shr =>
      rw [DestOp.bytes] at h
      simp only [runShape, shiftRight, DestOp.result, h, Except.map, Option.map, apply_result s _ _ _ hr]
      rfl
    | mvb | mvw | mvd =>
      rw [DestOp.bytes] at h
      simp only [runShape, move, DestOp.result, h, Except.map, Option.map, apply_move s _ _ hr]
      rfl

theorem runShape_dvr_eq_effect (d d2 : Byte) (src : Source Byte) (s : State) :
    runShape (.dvr d d2 src) s = ((Shape.dvr d d2 src).effect s).map (·.apply s) := by
  cases h : dvrOperands d d2 src s with
  | error f => simp only [runShape, divideRem, Shape.effect, h]; rfl
  | ok p =>
    obtain ⟨r, r2, sv⟩ := p
    obtain ⟨-, -, hr, hr2, -⟩ := dvrOperands_ok h
    cases hq : quotRem (s.getReg r) sv with
    | error f => simp only [runShape, divideRem, Shape.effect, h, bind, Except.bind, hq]; rfl
    | ok q =>
      simp only [runShape, divideRem, Shape.effect, h, bind, Except.bind, hq, Except.map,
        apply_two_results s _ _ _ _ hr hr2]
      rfl

theorem runShape_unary_eq_effect (op : UnaryOp) (d : Byte) (s : State) :
    runShape (.unary op d) s = ((Shape.unary op d).effect s).map (·.apply s) := by
  rw [runShape_unary, unary]
  cases h : destOnly d with
  | error f => simp only [Shape.effect, h]; rfl
  | ok r =>
    have hr : r ≠ .rpo := by
      rintro rfl
      obtain rfl := destOnly_ok h
      simp [destOnly_raw] at h
    simp only [Shape.effect, h, Except.map, apply_result s _ _ _ hr]
    rfl

theorem runShape_write_eq_effect (op : WriteOp) (src : Source Byte) (s : State) :
    runShape (.write op src) s = ((Shape.write op src).effect s).map (·.apply s) := by
  rw [runShape_write]
  cases h : src.check with
  | error f => simp only [writeFile, writeConsole, Shape.effect, h]; split <;> rfl
  | ok o =>
    cases hf : op.toFile with
    | false =>
      cases hv : o.value s op.bytes <;>
        simp [writeConsole, Shape.effect, op.width_div_eight, h, hf, hv, bind, Except.bind, pure, Except.pure, Except.map,
          apply_console]
    | true =>
      cases hopen : checkFile s with
      | error f => simp [writeFile, Shape.effect, h, hf, hopen, bind, Except.bind, Except.map]
      | ok u =>
        cases hv : o.value s op.bytes <;>
          simp [writeFile, Shape.effect, op.width_div_eight, h, hf, hopen, hv, bind, Except.bind, pure, Except.pure, Except.map,
            apply_file]

/-- Every operation reads its operands, raises the faults of its effect, and writes that. -/
theorem runShape_eq_effect (sh : Shape) (s : State) : runShape sh s = (sh.effect s).map (·.apply s) := by
  cases sh with
  | jump c tgt => exact runShape_jump_eq_effect c tgt s
  | dest op d src => exact runShape_dest_eq_effect op d src s
  | dvr d d2 src => exact runShape_dvr_eq_effect d d2 src s
  | unary op d => exact runShape_unary_eq_effect op d s
  | write op src => exact runShape_write_eq_effect op src s
  | hlt => simp only [runShape, Shape.effect, Except.map, apply_commit]

/-! ### What an instruction reads -/

/-- `t` looks as `s` to an instruction that names the registers `ids`. -/
structure LooksAlike (ids : List Byte) (s t : State) : Prop where
  reg : ∀ r, idByte r ∈ ids → t.getReg r = s.getReg r
  pc : t.pc = s.pc
  mem : t.mem = s.mem
  memSize : t.memSize = s.memSize
  fileOpen : t.fileOpen = s.fileOpen

theorem LooksAlike.mono {ids ids' : List Byte} {s t : State} (h : LooksAlike ids s t) (hsub : ids' ⊆ ids) :
    LooksAlike ids' s t :=
  { h with reg := fun r hr => h.reg r (hsub hr) }

theorem LooksAlike.memRead {ids : List Byte} {s t : State} (h : LooksAlike ids s t) (a : Word) (n : Nat) :
    t.memRead a n = s.memRead a n := by
  simp [State.memRead, State.admits, h.mem, h.memSize]

theorem LooksAlike.value {src : Source Byte} {s t : State} (h : LooksAlike src.ids s t) {o : Source Reg}
    (ho : src.check = .ok o) (n : Nat) : o.value t n = o.value s n := by
  obtain rfl := (source_check_ok_iff _ _).1 ho
  cases o with
  | reg r => simp only [Source.value, h.reg r (List.mem_singleton_self _)]
  | ptr r => simp only [Source.value, h.reg r (List.mem_singleton_self _), h.memRead]
  | lit v => rfl
  | addr a => exact h.memRead a n

theorem LooksAlike.offset {tgt : Target Byte} {s t : State} (h : LooksAlike tgt.ids s t) {o : Target Reg}
    (ho : tgt.check = .ok o) : o.offset t = o.offset s := by
  obtain rfl := (target_check_ok_iff _ _).1 ho
  cases o with
  | addr a => rfl
  | ptr r => exact h.reg r (List.mem_singleton_self _)

theorem LooksAlike.destAndSource {d : Byte} {src : Source Byte} {s t : State} (h : LooksAlike src.ids s t) (n : Nat) :
    destAndSource n d src t = destAndSource n d src s := by
  unfold Machine.destAndSource
  cases ho : src.check with
  | error f => rfl
  | ok o => simp only [bind, Except.bind, h.value ho]

theorem LooksAlike.dvrOperands {d d2 : Byte} {src : Source Byte} {s t : State} (h : LooksAlike src.ids s t) :
    dvrOperands d d2 src t = dvrOperands d d2 src s := by
  unfold Machine.dvrOperands
  cases ho : src.check with
  | error f => rfl
  | ok o => simp only [bind, Except.bind, h.value ho]

/-- R32: an effect depends on the registers named, the program counter, memory, the file-open input and, for a jump, on Zero, Sign
and Overflow. -/
theorem effect_congr {sh : Shape} {s t : State} (h : LooksAlike sh.instr.regIds s t)
    (hflags : ∀ c tgt, sh = .jump c tgt → t.flagZ = s.flagZ ∧ t.flagS = s.flagS ∧ t.flagO = s.flagO) :
    sh.effect t = sh.effect s := by
  rw [regIds_shape] at h
  match sh, h with
  | .jump c tgt, h =>
    obtain ⟨hz, hn, ho⟩ := hflags c tgt rfl
    cases hc : tgt.check with
    | error f => simp only [Shape.effect, hc, Except.map]
    | ok o => simp only [Shape.effect, Except.map, hc, hz, hn, ho, h.offset hc, h.pc]
  | .dest op d src, h =>
    have hds := (h.mono (List.subset_cons_self d src.ids)).destAndSource (d := d) op.bytes
    cases hp : destAndSource op.bytes d src s with
    | error f => simp only [Shape.effect, hds, hp, Except.bind]
    | ok p =>
      obtain ⟨r, sv⟩ := p
      obtain ⟨rfl, -⟩ := destAndSource_ok hp
      have hr : t.getReg r = s.getReg r := h.reg r List.mem_cons_self
      simp only [Shape.effect, hds, hp, Except.bind, hr, h.pc]
  | .dvr d d2 src, h =>
    have hds := (h.mono fun _ hb => List.mem_cons_of_mem d (List.mem_cons_of_mem d2 hb)).dvrOperands (d := d)
      (d2 := d2)
    cases hp : dvrOperands d d2 src s with
    | error f => simp only [Shape.effect, hds, hp, Except.bind]
    | ok p =>
      obtain ⟨r, r2, sv⟩ := p
      obtain ⟨rfl, -⟩ := dvrOperands_ok hp
      have hr : t.getReg r = s.getReg r := h.reg r List.mem_cons_self
      simp only [Shape.effect, hds, hp, Except.bind, hr, h.pc]
  | .unary op d, h =>
    cases hp : destOnly d with
    | error f => simp only [Shape.effect, hp, Except.map]
    | ok r =>
      obtain rfl := destOnly_ok hp
      simp only [Shape.effect, Except.map, hp, h.reg r List.mem_cons_self, h.pc]
  | .write op src, h =>
    cases ho : src.check with
    | error f => simp only [Shape.effect, ho, Except.bind]
    | ok o => simp only [Shape.effect, ho, Except.bind, checkFile, h.fileOpen, h.value ho, h.pc]
  | .hlt, h => simp only [Shape.effect, h.pc]

/-! ### What an effect leaves where -/

section
variable {s t : State} {r : Reg}

/-- What a register holds after an effect depends on what that register held, and on no other. -/
theorem setRegs_getReg_congr (writes : List (Reg × Word)) (h : t.getReg r = s.getReg r) :
    (t.setRegs writes).getReg r = (s.setRegs writes).getReg r := by
  induction writes generalizing s t with
  | nil => exact h
  | cons w ws ih => exact ih (by simp only [getReg_setReg, h])

theorem setStatus_getReg_congr (status : Option (Word × Bool)) (h : t.getReg r = s.getReg r) :
    (t.setStatus status).getReg r = (s.setStatus status).getReg r := by
  cases status with
  | none => exact h
  | some p =>
    by_cases hr : r = .rsf
    · subst hr; simp [State.setStatus, h]
    · simp [State.setStatus, hr, h]

theorem apply_getReg_congr (e : Effect) (h : t.getReg r = s.getReg r) : (e.apply t).getReg r = (e.apply s).getReg r := by
  simp [Effect.apply, setStatus_getReg_congr e.status (setRegs_getReg_congr e.writes h)]

end

section
variable (s : State) (ws : List (Reg × Word))

theorem setRegs_eq : s.setRegs ws = { s with regs := (s.setRegs ws).regs } := by
  induction ws generalizing s with
  | nil => rfl
  | cons w ws ih => exact ih (s.setReg w.1 w.2)

@[simp] theorem setRegs_mem : (s.setRegs ws).mem = s.mem := by rw [setRegs_eq]
@[simp] theorem setRegs_memSize : (s.setRegs ws).memSize = s.memSize := by rw [setRegs_eq]
@[simp] theorem setRegs_consoleOut : (s.setRegs ws).consoleOut = s.consoleOut := by rw [setRegs_eq]
@[simp] theorem setRegs_fileOut : (s.setRegs ws).fileOut = s.fileOut := by rw [setRegs_eq]
@[simp] theorem setRegs_fileOpen : (s.setRegs ws).fileOpen = s.fileOpen := by rw [setRegs_eq]

end

section
variable (s : State) (status : Option (Word × Bool))

@[simp] theorem setStatus_mem : (s.setStatus status).mem = s.mem := by cases status <;> rfl
@[simp] theorem setStatus_memSize : (s.setStatus status).memSize = s.memSize := by cases status <;> rfl
@[simp] theorem setStatus_consoleOut : (s.setStatus status).consoleOut = s.consoleOut := by cases status <;> rfl
@[simp] theorem setStatus_fileOut : (s.setStatus status).fileOut = s.fileOut := by cases status <;> rfl
@[simp] theorem setStatus_fileOpen : (s.setStatus status).fileOpen = s.fileOpen := by cases status <;> rfl

end

section
variable (e : Effect) (s : State)

@[simp] theorem apply_mem : (e.apply s).mem = s.mem := by simp [Effect.apply]
@[simp] theorem apply_memSize : (e.apply s).memSize = s.memSize := by simp [Effect.apply]
@[simp] theorem apply_consoleOut : (e.apply s).consoleOut = s.consoleOut ++ e.console := by simp [Effect.apply]
@[simp] theorem apply_fileOut : (e.apply s).fileOut = s.fileOut ++ e.file := by simp [Effect.apply]
@[simp] theorem apply_fileOpen : (e.apply s).fileOpen = s.fileOpen := by simp [Effect.apply]
@[simp] theorem apply_report : (e.apply s).report = e.how := rfl

end

/-! ### Instructions by their effects -/

theorem exec_eq_effect (i : Instr) (s : State) : exec i s = finish (((shapeOf i).effect s).map (·.apply s)) := by
  rw [exec_eq_run, runShape_eq_effect]

theorem exec_next_iff_effect {i : Instr} {s t : State} :
    exec i s = .next t ↔ ∃ e, (shapeOf i).effect s = .ok e ∧ e.apply s = t := by
  rw [exec_eq_effect, finish_eq_next]
  cases (shapeOf i).effect s <;> simp [Except.map]

theorem exec_fault_iff_effect {i : Instr} {s : State} {f : Fault} :
    exec i s = .fault f ↔ (shapeOf i).effect s = .error f := by
  rw [exec_eq_effect, finish_eq_fault]
  cases (shapeOf i).effect s <;> simp [Except.map]

theorem except_map_eq_ok {α β : Type} {x : Except Fault α} {f : α → β} {b : β} :
    x.map f = .ok b ↔ ∃ a, x = .ok a ∧ f a = b := by
  cases x <;> simp [Except.map]

theorem except_bind_eq_ok {α β : Type} {x : Except Fault α} {f : α → Except Fault β} {b : β} :
    x.bind f = .ok b ↔ ∃ a, x = .ok a ∧ f a = .ok b := by
  cases x <;> simp [Except.bind]

/-- R224, R225: text goes to the console for `WCN` and `WCB` only, to the file for `WFN` and `WFB` only. -/
theorem effect_texts {sh : Shape} {s : State} {e : Effect} (h : sh.effect s = .ok e) :
    (isConsoleWrite sh.instr = false → e.console = []) ∧ (isFileWrite sh.instr = false → e.file = []) := by
  simp only [isConsoleWrite, isFileWrite, shapeOf_instr]
  match sh with
  | .jump c t => obtain ⟨o, -, rfl⟩ := except_map_eq_ok.1 h; simp
  | .dest op d src =>
    obtain ⟨p, -, h⟩ := except_bind_eq_ok.1 h
    obtain ⟨q, -, rfl⟩ := except_map_eq_ok.1 h
    simp
  | .dvr d d2 src =>
    obtain ⟨p, -, h⟩ := except_bind_eq_ok.1 h
    obtain ⟨q, -, rfl⟩ := except_map_eq_ok.1 h
    simp
  | .unary op d => obtain ⟨r, -, rfl⟩ := except_map_eq_ok.1 h; simp
  | .write op src =>
    obtain ⟨o, -, h⟩ := except_bind_eq_ok.1 h
    obtain ⟨u, -, h⟩ := except_bind_eq_ok.1 h
    obtain ⟨sv, -, rfl⟩ := except_map_eq_ok.1 h
    cases op <;> simp [WriteOp.toFile]
  | .hlt => obtain rfl := Except.ok.inj h; simp

/-- R224, R225: no instruction reads the sinks. -/
theorem looksAlike_sinks (ids : List Byte) (s : State) (c f : List Byte) :
    LooksAlike ids s { s with consoleOut := c, fileOut := f } :=
  ⟨fun _ _ => rfl, rfl, rfl, rfl, rfl⟩

/-- An instruction that does not name `rsf` sees no change of it. -/
theorem looksAlike_rsf {ids : List Byte} (h : idByte .rsf ∉ ids) (s : State) (v : Word) :
    LooksAlike ids s (s.setReg .rsf v) where
  reg r hr := getReg_setReg_ne s v fun e => h (e ▸ hr)
  pc := pc_setReg s (by simp) v
  mem := rfl
  memSize := rfl
  fileOpen := rfl

/-- No instruction reads how the last one ended. -/
theorem exec_report (i : Instr) (s : State) (how : StepReport) : exec i { s with report := how } = exec i s := by
  have happly (e : Effect) : e.apply { s with report := how } = e.apply s :=
    state_ext (fun r => apply_getReg_congr e rfl) (by simp) (by simp) (by simp) (by simp) (by simp) rfl
  have heffect : (shapeOf i).effect { s with report := how } = (shapeOf i).effect s :=
    effect_congr ⟨fun _ _ => rfl, rfl, rfl, rfl, rfl⟩ fun _ _ _ => ⟨rfl, rfl, rfl⟩
  simp only [exec_eq_effect, heffect, happly]

/-! ### The statements -/

/-- Settles O17: the effect of an instruction is the same whatever the sinks hold, and applying it appends its texts. -/
theorem sinksAreAppendOnly : Obligations.SinksAreAppendOnly := by
  intro i s t h
  obtain ⟨e, he, rfl⟩ := exec_next_iff_effect.1 h
  have htexts := effect_texts he
  rw [instr_shapeOf] at htexts
  refine ⟨e.console, e.file, apply_consoleOut e s, apply_fileOut e s, htexts.1, htexts.2, fun c f => ?_⟩
  refine exec_next_iff_effect.2 ⟨e, ?sameEffect, ?applied⟩
  case sameEffect => rw [← he]; exact effect_congr (looksAlike_sinks _ s c f) fun _ _ _ => ⟨rfl, rfl, rfl⟩
  case applied =>
    exact state_ext (fun r => apply_getReg_congr e rfl) (by simp) (by simp) (by simp) (by simp) (by simp) rfl

/-- Settles O18: the effect of an instruction that does not name `rsf` is the same when `rsf` changes, a jump's when it keeps
Zero, Sign and Overflow. -/
theorem statusRegisterReadOnlyWhereNamed : Obligations.StatusRegisterReadOnlyWhereNamed := by
  intro i s v hi hjump
  have heffect : (shapeOf i).effect (s.setReg .rsf v) = (shapeOf i).effect s := by
    refine effect_congr (looksAlike_rsf (by rwa [instr_shapeOf]) s v) fun c tgt hsh => ?_
    simpa [State.flagZ, State.flagS, State.flagO] using hjump c tgt hsh
  refine ⟨fun f => by rw [exec_fault_iff_effect, exec_fault_iff_effect, heffect], fun t h => ?_⟩
  obtain ⟨e, he, rfl⟩ := exec_next_iff_effect.1 h
  refine ⟨_, exec_next_iff_effect.2 ⟨e, heffect.trans he, rfl⟩, fun r hr => ?_, ⟨fun a => by simp, by simp⟩,
    ⟨by simp, by simp, by simp⟩, rfl⟩
  exact apply_getReg_congr e (getReg_setReg_ne s v (by simpa using hr))

end Sys2Proof.Machine
end

section
/-!
SUPPORT. The bytes fetched: how many they are, what they decode to, and where the fetch faults (40_fetch_decode_operands.md R111,
R112); the program a load leaves there (70_reset_and_hazards.md R273); and the run as repeated step (50_interfaces.md R222).
-/

namespace Sys2Proof.Machine

/-! ### Lengths -/

theorem length_pos (i : Instr) : 1 ≤ i.length := by
  by_cases h : i = .hlt
  · rw [h]; decide
  · rw [length_eq_two_add_operandBytes h]; omega

theorem length_le_maxLength (i : Instr) : i.length ≤ maxLength := by
  cases i <;> exact Nat.le_of_ble_eq_true rfl

/-- R84: what decodes takes as many bytes as its instruction is long. -/
theorem decode_ok_length {bs rest : List Byte} {i : Instr} (h : decode bs = .ok (i, rest)) :
    bs.length = i.length + rest.length := by
  rw [encodeRebuildsDecoded bs rest i h, List.length_append, encode_length]

/-! ### The bytes fetched -/

theorem fetchBytes_length (s : State) : s.fetchBytes.length = min maxLength (s.memSize.val - s.pc.toNat) :=
  readBytes_length ..

/-- At the end of memory nothing is fetched. -/
theorem fetchBytes_eq_nil {s : State} (h : s.memSize.val ≤ s.pc.toNat) : s.fetchBytes = [] := by
  apply List.eq_nil_of_length_eq_zero
  rw [fetchBytes_length]
  omega

theorem fetchBytes_eq_cons {s : State} (h : s.pc.toNat < s.memSize.val) :
    ∃ bs, s.fetchBytes = s.mem.readByte s.pc.toNat :: bs := by
  obtain ⟨n, hn⟩ : ∃ n, min maxLength (s.memSize.val - s.pc.toNat) = n + 1 :=
    Nat.exists_eq_add_one.2 (by rw [maxLength]; omega)
  exact ⟨_, by rw [State.fetchBytes, hn, Memory.readBytes]⟩

theorem fetchBytes_eq_cons_cons {s : State} (h : s.pc.toNat + 1 < s.memSize.val) :
    ∃ ops, s.fetchBytes = s.mem.readByte s.pc.toNat :: s.mem.readByte (s.pc.toNat + 1) :: ops := by
  obtain ⟨n, hn⟩ : ∃ n, min maxLength (s.memSize.val - s.pc.toNat) = n + 2 :=
    Nat.exists_eq_add_of_le' (by rw [maxLength]; omega)
  exact ⟨_, by rw [State.fetchBytes, hn, Memory.readBytes, Memory.readBytes]⟩

theorem step_of_decode_error {s : State} {r : Reject} (h : decode s.fetchBytes = .error r) :
    step s = .fault (rejectFault r) :=
  step_of_fetch_error (by simp [State.fetch, h])

/-- R111, R112: where the opcode bytes are those of an instruction that does not fit, what there is of it is truncated. -/
theorem decode_truncated {b0 b1 : Byte} {ops : List Byte} {i : Instr} (hpre : [b0, b1] <+: encode i)
    (hlen : (b0 :: b1 :: ops).length < i.length) : decode (b0 :: b1 :: ops) = .error .truncated := by
  obtain ⟨more, hmore⟩ := hpre
  have hi : decode (b0 :: b1 :: more) = .ok (i, []) := by
    have h := decodeReadsBackEncode i []
    rwa [List.append_nil, ← hmore] at h
  cases h : decode (b0 :: b1 :: ops) with
  | ok p =>
    obtain ⟨i', rest⟩ := p
    have hsame : i'.length = i.length := (lengthFixedByOpcodeBytes _ _ _ _ hi).2.2 _ _ _ h fun _ => rfl
    have hops := decode_ok_length h
    omega
  | error r =>
    cases r with
    | truncated => rfl
    | invalidOpcode =>
      by_cases hff : b0 = 0xFF
      · subst hff
        rw [decode_extended_invalid_iff, ← decode_extended_invalid_iff b1 more, hi] at h
        cases h
      · by_cases h00 : b0 = 0x00
        · subst h00; cases h
        · rw [decode_other _ h00 hff] at hi; cases hi

/-! ### A program in memory -/

theorem readBytes_append (m : Memory) (a n k : Nat) :
    m.readBytes a (n + k) = m.readBytes a n ++ m.readBytes (a + n) k := by
  induction n generalizing a with
  | zero => simp [Memory.readBytes]
  | succ n ih =>
    rw [Nat.succ_add, Memory.readBytes, ih, Memory.readBytes, Nat.add_right_comm, Nat.add_assoc]
    rfl

/-- What has been stored is read back, and so is each first part of it. -/
theorem readBytes_writeBytes_append {m : Memory} (hm : m.wf) (a : Nat) (bs more : List Byte) :
    (m.writeBytes a (bs ++ more)).readBytes a bs.length = bs := by
  have h := readBytes_writeBytes m a (bs ++ more) hm
  rw [List.length_append, readBytes_append] at h
  exact (List.append_inj h (readBytes_length ..)).1

/-- R65: where the bytes of an instruction stand at the program counter, within memory, the step executes it. -/
theorem step_of_readBytes {s : State} {i : Instr} (hmem : s.pc.toNat + i.length ≤ s.memSize.val)
    (h : s.mem.readBytes s.pc.toNat i.length = encode i) : step s = exec i s := by
  have hmax := length_le_maxLength i
  obtain ⟨k, hk⟩ : ∃ k, min maxLength (s.memSize.val - s.pc.toNat) = i.length + k :=
    Nat.exists_eq_add_of_le (by omega)
  have hfetch : s.fetchBytes = encode i ++ s.mem.readBytes (s.pc.toNat + i.length) k := by
    rw [State.fetchBytes, hk, readBytes_append, h]
  exact step_of_decode (by rw [hfetch]; exact decodeReadsBackEncode i _)

/-! ### Runs -/

theorem run_succ_halted {s t : State} (h : step s = .next t) (ht : t.report = .halted) (k : Nat) :
    run (k + 1) s = (.halted, t) := by
  simp [run, h, ht]

theorem run_succ_next {s t : State} (h : step s = .next t) (ht : t.report = .next) (k : Nat) :
    run (k + 1) s = run k t := by
  simp [run, h, ht]

theorem run_succ_fault {s : State} {f : Fault} (h : step s = .fault f) (k : Nat) : run (k + 1) s = (.fault f, s) := by
  simp [run, h]

/-- The three ways a run with a budget begins. -/
theorem step_cases (s : State) :
    (∃ t, step s = .next t ∧ t.report = .halted) ∨ (∃ t, step s = .next t ∧ t.report = .next) ∨
      ∃ f, step s = .fault f := by
  obtain ⟨t, h⟩ | hf := step_next_or_fault s
  · cases ht : t.report with
    | halted => exact .inl ⟨t, h, ht⟩
    | next => exact .inr (.inl ⟨t, h, ht⟩)
  · exact .inr (.inr hf)

/-- A run that was suspended goes on as if it had not been. -/
theorem run_add_of_stopped {k : Nat} {s t : State} (h : run k s = (.stopped, t)) (j : Nat) :
    run (k + j) s = run j t := by
  induction k generalizing s with
  | zero => cases h; rw [Nat.zero_add]
  | succ k ih =>
    rw [Nat.succ_add]
    obtain ⟨u, hs, hu⟩ | ⟨u, hs, hu⟩ | ⟨f, hs⟩ := step_cases s
    · rw [run_succ_halted hs hu] at h; cases h
    · rw [run_succ_next hs hu] at h ⊢; exact ih h
    · rw [run_succ_fault hs] at h; cases h

/-- R211: a run that ended took its last step from where a shorter budget suspends it, and that step halted or faulted. -/
theorem run_last_step {k : Nat} {s t : State} {e : RunEnd} (h : run k s = (e, t)) (he : e ≠ .stopped) :
    ∃ j < k, ∃ u, run j s = (.stopped, u) ∧
      ((e = .halted ∧ step u = .next t ∧ t.report = .halted) ∨ ∃ f, e = .fault f ∧ step u = .fault f ∧ t = u) := by
  induction k generalizing s with
  | zero => cases h; exact absurd rfl he
  | succ k ih =>
    obtain ⟨u, hs, hu⟩ | ⟨u, hs, hu⟩ | ⟨f, hs⟩ := step_cases s
    · rw [run_succ_halted hs hu] at h
      cases h
      exact ⟨0, k.succ_pos, s, rfl, .inl ⟨rfl, hs, hu⟩⟩
    · rw [run_succ_next hs hu] at h
      obtain ⟨j, hj, v, hv, hlast⟩ := ih h
      exact ⟨j + 1, Nat.succ_lt_succ hj, v, (run_succ_next hs hu j).trans hv, hlast⟩
    · rw [run_succ_fault hs] at h
      cases h
      exact ⟨0, k.succ_pos, _, rfl, .inr ⟨f, rfl, hs, rfl⟩⟩

/-- A longer budget changes no end. -/
theorem run_add_of_ended {k : Nat} {s t : State} {e : RunEnd} (h : run k s = (e, t)) (he : e ≠ .stopped) (j : Nat) :
    run (k + j) s = (e, t) := by
  obtain ⟨n, hn, u, hu, hlast⟩ := run_last_step h he
  obtain ⟨m, rfl⟩ : ∃ m, k = n + 1 + m := Nat.exists_eq_add_of_le hn
  rw [Nat.add_assoc, Nat.add_assoc, run_add_of_stopped hu, Nat.add_comm 1]
  obtain ⟨rfl, hs, ht⟩ | ⟨f, rfl, hs, rfl⟩ := hlast
  · exact run_succ_halted hs ht _
  · exact run_succ_fault hs _

/-- No halt is latched. -/
theorem step_report (s : State) (how : StepReport) : step { s with report := how } = step s := by
  have hfetch : ({ s with report := how } : State).fetch = s.fetch := rfl
  simp only [step, hfetch, exec_report]

theorem fetch_of_halted {s t : State} (h : step s = .next t) (ht : t.report = .halted) : s.fetch = .ok .hlt := by
  obtain ⟨i, hi, hc⟩ := step_completion h
  by_cases hne : i = .hlt
  · rw [hi, hne]
  · rw [hc.report_next hne] at ht; cases ht

/-! ### The statements -/

/-- Settles O6: by the definition of the bytes fetched, and of the step where they decode. -/
theorem stepRunsDecodedInstruction : Obligations.StepRunsDecodedInstruction :=
  fun s => ⟨fetchBytes_length s, fun k hk => readBytes_getElem s.mem _ _ k hk, fun _ _ => step_of_decode⟩

/-- Settles O8: by how many bytes there are and what the decoder says of the first two. -/
theorem fetchFaults : Obligations.FetchFaults := by
  rintro s b0 b1 rfl rfl
  refine ⟨fun h => ?noByte, fun h h0 => ?onlyPage, fun h h00 hff => ?noPage, fun h h0 h1 => ?noRow,
    fun i h hpre hlen => ?noRoom⟩
  case noByte => exact step_of_decode_error (r := .truncated) (by rw [fetchBytes_eq_nil h]; rfl)
  case onlyPage =>
    obtain ⟨bs, hbs⟩ := fetchBytes_eq_cons (s := s) (by omega)
    have hlen := fetchBytes_length s
    obtain rfl : bs = [] := by
      apply List.eq_nil_of_length_eq_zero
      rw [hbs, List.length_cons, maxLength] at hlen
      omega
    exact step_of_decode_error (r := .truncated) (by rw [hbs, h0]; rfl)
  case noPage =>
    obtain ⟨bs, hbs⟩ := fetchBytes_eq_cons h
    exact step_of_decode_error (r := .invalidOpcode) (by rw [hbs, decode_other _ h00 hff])
  case noRow =>
    obtain ⟨ops, hops⟩ := fetchBytes_eq_cons_cons h
    exact step_of_decode_error (r := .invalidOpcode) (by rw [hops, h0]; exact (unassignedOpcodesRejected _ ops).2.2 h1)
  case noRoom =>
    obtain ⟨ops, hops⟩ := fetchBytes_eq_cons_cons h
    have hlength := fetchBytes_length s
    rw [hops] at hlength
    exact step_of_decode_error (r := .truncated) (by rw [hops]; exact decode_truncated hpre (by omega))

/-- Settles O9: what decodes stands within memory, so that its end is no sum that wraps. -/
theorem stepAdvancesWithoutWrapping : Obligations.StepAdvancesWithoutWrapping := by
  intro s t i rest hd hs
  have hpc := sequencerWritesProgramCounter i s t (step_of_decode hd ▸ hs)
  have hlen := decode_ok_length hd
  rw [fetchBytes_length] at hlen
  have hpos := length_pos i
  have hmem := s.memSize.isLt
  cases htarget : takenTarget i s with
  | some target => simpa [htarget] using hpc
  | none =>
    have hsum : t.pc.toNat = s.pc.toNat + i.length := by
      rw [hpc, htarget, Option.getD_none, BitVec.toNat_add, BitVec.toNat_ofNat]
      omega
    exact ⟨hsum, by omega⟩

/-- Settles O52: the bytes loaded are read back, and the fetch at offset 0 reads their beginning. -/
theorem loadedProgramRuns : Obligations.LoadedProgramRuns := by
  intro s bytes hm
  refine ⟨fun h => by simp [State.load, Nat.not_le.2 h], fun h => ?_⟩
  refine ⟨_, (load_ok_iff ..).2 ⟨h, rfl⟩, fun k hk => ?loaded, fun a ha => ?rest, rfl, fun _ _ => rfl, ⟨rfl, rfl, rfl⟩,
    fun i hpc hpre => ?runs⟩
  case loaded => simpa using readByte_writeBytes_add hm 0 bytes hk
  case rest => exact readByte_writeBytes_of_outside hm (.inr (by omega))
  case runs =>
    obtain ⟨more, rfl⟩ := hpre
    have hlen := encode_length i
    rw [List.length_append] at h
    have hpc0 : s.pc.toNat = 0 := by rw [hpc]; rfl
    refine step_of_readBytes ?_ ?_
    · show s.pc.toNat + i.length ≤ s.memSize.val
      omega
    · show (s.mem.writeBytes 0 (encode i ++ more)).readBytes s.pc.toNat i.length = encode i
      rw [hpc0, ← hlen]
      exact readBytes_writeBytes_append hm 0 (encode i) more

/-- Settles O54: the equations of `run`, and the last step of a run that ended. -/
theorem runEndsAsItsLastStep : Obligations.RunEndsAsItsLastStep := by
  intro k s
  refine ⟨rfl, fun u hs hu => run_succ_halted hs hu k, fun u hs hu => run_succ_next hs hu k,
    fun f hs => run_succ_fault hs k, fun t e h => ⟨?fault, ?halted, ?stopped, run_add_of_ended h, ?refused, step_report t⟩⟩
  case fault =>
    rintro f rfl
    obtain ⟨j, hj, u, hu, ⟨he, -⟩ | ⟨g, he, hs, rfl⟩⟩ := run_last_step h nofun
    · cases he
    · cases he; exact ⟨hs, j, hj, hu⟩
  case halted =>
    rintro rfl
    obtain ⟨j, hj, u, hu, ⟨-, hs, ht⟩ | ⟨g, he, -⟩⟩ := run_last_step h nofun
    · exact ⟨ht, j, hj, u, hu, fetch_of_halted hs ht, hs⟩
    · cases he
  case stopped => rintro rfl; exact run_add_of_stopped h
  case refused =>
    rintro r rfl
    obtain ⟨-, -, -, -, ⟨he, -⟩ | ⟨g, he, -⟩⟩ := run_last_step h nofun <;> cases he

end Sys2Proof.Machine
end

section
/-!
SUPPORT. The faults of an instruction and the condition each stands for (60_exceptions.md R240 to R249).
-/

namespace Sys2Proof.Machine

theorem not_wellFormed_iff (i : Instr) : ¬ i.WellFormed = true ↔ ∃ id ∈ i.regIds, 0x10 ≤ id.toNat := by
  rw [wellFormed_iff]; push Not; rfl

/-- Every fault raised has its condition. -/
theorem exec_fault_cases {i : Instr} {s : State} {f : Fault} (h : exec i s = .fault f) :
    (f = .invalidRegister ∧ ¬ i.WellFormed = true) ∨ (f = .illegalDestination ∧ (0x00 : Byte) ∈ destIds i) ∨
      (f = .fileOperation ∧ isFileWrite i = true ∧ s.fileOpen = false) ∨
      (f = .memoryBounds ∧ sourceOutOfBounds i s) ∨ (f = .divideByZero ∧ divisorIsZero i s) := by
  have raised {g : Fault} (hg : exec i s = .fault g) : f = g := by rw [h] at hg; cases hg; rfl
  by_cases hw : i.WellFormed = true
  · have hx := exec_well_formed i s hw
    split at hx
    · exact .inr (.inl ⟨raised hx, ‹_›⟩)
    · split at hx
      · exact .inr (.inr (.inl ⟨raised hx, ‹_›⟩))
      · obtain ⟨hb, -, hx⟩ | ⟨-, hz, hx⟩ | ⟨-, -, t, hx⟩ := hx
        · exact .inr (.inr (.inr (.inl ⟨raised hx, hb⟩)))
        · exact .inr (.inr (.inr (.inr ⟨raised hx, hz⟩)))
        · rw [h] at hx; cases hx
  · exact .inl ⟨raised (exec_ill_formed i s hw), hw⟩

/-- Past the checks of ids, destination and device: the source read, the divisor, or completion. -/
theorem exec_of_checks_passed {i : Instr} {s : State} (hw : i.WellFormed = true) (hd : (0x00 : Byte) ∉ destIds i)
    (hf : isFileWrite i = true → s.fileOpen = true) :
    (sourceOutOfBounds i s ∧ ¬ divisorIsZero i s ∧ exec i s = .fault .memoryBounds) ∨
      (¬ sourceOutOfBounds i s ∧ divisorIsZero i s ∧ exec i s = .fault .divideByZero) ∨
      (¬ sourceOutOfBounds i s ∧ ¬ divisorIsZero i s ∧ ∃ t, exec i s = .next t) := by
  have hopen : ¬ (isFileWrite i = true ∧ s.fileOpen = false) := fun ⟨h, hclosed⟩ => by simp [hf h] at hclosed
  have hx := exec_well_formed i s hw
  rwa [if_neg hd, if_neg hopen] at hx

/-! ### The table of R249 -/

section
variable {i : Instr}

theorem invalidRegister_mem_mayRaise (h : i.regIds ≠ []) : .invalidRegister ∈ mayRaise i := by
  simp [mayRaise, h]

theorem illegalDestination_mem_mayRaise (h : destIds i ≠ []) : .illegalDestination ∈ mayRaise i := by
  simp [mayRaise, h]

theorem fileOperation_mem_mayRaise (h : isFileWrite i = true) : .fileOperation ∈ mayRaise i := by
  simp [mayRaise, h]

theorem divideByZero_mem_mayRaise (h : isDivision i = true) : .divideByZero ∈ mayRaise i := by
  simp [mayRaise, h]

/-- Only an Address or Pointer source has an offset to read from. -/
theorem memoryBounds_mem_mayRaise {s : State} (h : sourceOutOfBounds i s) : .memoryBounds ∈ mayRaise i := by
  obtain ⟨src, n, o, a, hsrc, ho, ha, -⟩ := h
  obtain rfl := (source_check_ok_iff _ _).1 ho
  cases o with
  | reg r | lit v => cases ha
  | addr a | ptr r => simp [mayRaise, hsrc, Source.raw]

end

/-! ### The statements -/

/-- Settles O21: the id check answers first, and InvalidRegister is the fault of no other check. -/
theorem invalidRegisterExactly : Obligations.InvalidRegisterExactly := by
  intro i s
  rw [← not_wellFormed_iff]
  refine ⟨fun h => ?_, exec_ill_formed i s⟩
  obtain ⟨-, hw⟩ | ⟨hf, -⟩ | ⟨hf, -⟩ | ⟨hf, -⟩ | ⟨hf, -⟩ := exec_fault_cases h
  · exact hw
  all_goals cases hf

/-- Settles O24: past the earlier checks the source is read before the divisor is looked at. -/
theorem dataReadBoundsExactly : Obligations.DataReadBoundsExactly := by
  intro i s hw hd hf
  obtain ⟨hb, -, h⟩ | ⟨hb, -, h⟩ | ⟨hb, -, t, h⟩ := exec_of_checks_passed hw hd hf
  · exact iff_of_true h hb
  · exact iff_of_false (by simp [h]) hb
  · exact iff_of_false (by simp [h]) hb

/-- Settles O25: the condition of each fault puts it into the table. -/
theorem faultsWithinTable : Obligations.FaultsWithinTable := by
  intro i s f h
  obtain ⟨rfl, hw⟩ | ⟨rfl, hd⟩ | ⟨rfl, hfile, -⟩ | ⟨rfl, hb⟩ | ⟨rfl, hz, -⟩ := exec_fault_cases h
  · obtain ⟨id, hid, -⟩ := (not_wellFormed_iff i).1 hw
    exact invalidRegister_mem_mayRaise (List.ne_nil_of_mem hid)
  · exact illegalDestination_mem_mayRaise (List.ne_nil_of_mem hd)
  · exact fileOperation_mem_mayRaise hfile
  · exact memoryBounds_mem_mayRaise hb
  · exact divideByZero_mem_mayRaise hz

/-- Settles O26: an instruction either completes or faults, a fault raised has its condition, and past all checks it completes. -/
theorem completesIffNoFaultApplies : Obligations.CompletesIffNoFaultApplies := by
  intro i s
  constructor
  · rintro ⟨t, h⟩
    have hw : i.WellFormed = true := by
      by_contra hw
      rw [exec_ill_formed i s hw] at h
      cases h
    have hd : (0x00 : Byte) ∉ destIds i := fun hd => by
      rw [(illegalDestinationExactly i s hw).2 hd] at h
      cases h
    have hf : isFileWrite i = true → s.fileOpen = true := fun hf => by
      by_contra hclosed
      rw [(fileOperationExactly i s hw).2 ⟨hf, by simpa using hclosed⟩] at h
      cases h
    obtain ⟨-, -, hx⟩ | ⟨-, -, hx⟩ | ⟨hb, hz, -⟩ := exec_of_checks_passed hw hd hf
    · rw [hx] at h; cases h
    · rw [hx] at h; cases h
    · exact ⟨hw, hd, hf, hb, hz⟩
  · rintro ⟨hw, hd, hf, hb, hz⟩
    obtain ⟨hb', -⟩ | ⟨-, hz', -⟩ | ⟨-, -, hx⟩ := exec_of_checks_passed hw hd hf
    · exact absurd hb' hb
    · exact absurd hz' hz
    · exact hx

end Sys2Proof.Machine
end

section
/-!
SUPPORT. What the jumps, and the instructions that leave a result and its flags, do on register operands, each as one update of
the state and the registers it changes (10_state.md R30 to R33, 41_signed_jumps.md R140).
-/

namespace Sys2Proof.Machine

/-! ### Jumps -/

/-- A commit of the program counter changes nothing else. -/
theorem changesOnlyRegs_commitPc (s : State) (target : Word) :
    ChangesOnlyRegs [.rpo] s (s.commitPc target .next) := by
  refine ⟨fun r hr => ?_, ⟨fun _ => rfl, rfl⟩, ⟨rfl, rfl, rfl⟩, rfl⟩
  rw [commitPc_getReg, if_neg (by simpa using hr)]

/-- R140: every jump, by its condition and its target. -/
theorem jumpsIf_jump (c : Cond) (o : Target Reg) (s : State) :
    JumpsIf (Shape.jump c o.raw).instr s (c.holds s.flagS s.flagO s.flagZ) (o.offset s)
      (s.pc + BitVec.ofNat 64 (2 + o.size)) := by
  have hexec : exec (Shape.jump c o.raw).instr s = .next (s.commitPc
      (if c.holds s.flagS s.flagO s.flagZ then o.offset s else s.pc + BitVec.ofNat 64 (2 + o.size)) .next) := by
    rw [exec_shape, runShape, jump_raw, cond_fn]
    split <;> rfl
  exact ⟨_, hexec, by simp [pc_def], changesOnlyRegs_commitPc _ _⟩

/-- Settles O27: the pair of conditions on S = O, in both forms. -/
theorem jltJgeCompareSignOverflow : Obligations.JltJgeCompareSignOverflow := fun s a r =>
  ⟨jumpsIf_jump .jlt (.addr a) s, jumpsIf_jump .jlt (.ptr r) s, jumpsIf_jump .jge (.addr a) s,
    jumpsIf_jump .jge (.ptr r) s⟩

/-- Settles O28: the pair of conditions on Z and S = O, in both forms. -/
theorem jleJgtCompareWithZero : Obligations.JleJgtCompareWithZero := fun s a r =>
  ⟨jumpsIf_jump .jle (.addr a) s, jumpsIf_jump .jle (.ptr r) s, jumpsIf_jump .jgt (.addr a) s,
    jumpsIf_jump .jgt (.ptr r) s⟩

/-- Settles O29: the pair of conditions on S, in both forms. -/
theorem jsiJnsTestSign : Obligations.JsiJnsTestSign := fun s a r =>
  ⟨jumpsIf_jump .jsi (.addr a) s, jumpsIf_jump .jsi (.ptr r) s, jumpsIf_jump .jns (.addr a) s,
    jumpsIf_jump .jns (.ptr r) s⟩

/-- Settles O30: the pair of conditions on O, in both forms. -/
theorem jovJnoTestOverflow : Obligations.JovJnoTestOverflow := fun s a r =>
  ⟨jumpsIf_jump .jov (.addr a) s, jumpsIf_jump .jov (.ptr r) s, jumpsIf_jump .jno (.addr a) s,
    jumpsIf_jump .jno (.ptr r) s⟩

/-! ### A result and its flags -/

/-- A result in one register and flags: the program counter, `rsf` and that register are changed. -/
theorem changesOnlyRegs_result (s : State) (d : Reg) (v x : Word) (c : Bool) (n : Nat) :
    ChangesOnlyRegs [.rpo, .rsf, d] s (((s.setReg d v).setZS x c false).advance n) := by
  refine ⟨fun r hr => ?_, ⟨fun _ => rfl, rfl⟩, ⟨rfl, rfl, rfl⟩, rfl⟩
  simp only [List.mem_cons, List.not_mem_nil, or_false, not_or] at hr
  simp [hr]

/-- Two results and flags: the program counter, `rsf` and those registers are changed. -/
theorem changesOnlyRegs_two_results (s : State) (d d2 : Reg) (q m x : Word) (c : Bool) (n : Nat) :
    ChangesOnlyRegs [.rpo, .rsf, d, d2] s ((((s.setReg d q).setReg d2 m).setZS x c false).advance n) := by
  refine ⟨fun r hr => ?_, ⟨fun _ => rfl, rfl⟩, ⟨rfl, rfl, rfl⟩, rfl⟩
  simp only [List.mem_cons, List.not_mem_nil, or_false, not_or] at hr
  simp [hr]

theorem ChangesOnlyRegs.mono {written written' : List Reg} {s t : State} (h : ChangesOnlyRegs written s t)
    (hsub : written ⊆ written') : ChangesOnlyRegs written' s t :=
  ⟨fun r hr => h.1 r fun hm => hr (hsub hm), h.2⟩

theorem pc_advance (s : State) (n : Nat) : (s.advance n).pc = s.pc + BitVec.ofNat 64 n := by simp [pc_def]

section
variable {i : Instr} {s : State} {d d2 : Reg} {v q m : Word} {c : Bool} {n : Nat}

theorem setsRegAndFlags_of_exec (hd : d ≠ .rpo) (hs : d ≠ .rsf)
    (h : exec i s = .next (((s.setReg d v).setZS v c false).advance n)) : SetsRegAndFlags i s d v c n := by
  have hstatus := setZS_status (s.setReg d v) v c false n
  rw [getReg_setReg_ne s v hs.symm] at hstatus
  exact ⟨_, h, by simp [hd, hs], hstatus, by rw [pc_advance, pc_setZS, pc_setReg s hd],
    changesOnlyRegs_result s d v v c n⟩

/-- R33: with `rsf` as destination the result is what the flags are written over. -/
theorem setsStatusRegister_of_exec (h : exec i s = .next (((s.setReg .rsf v).setZS v c false).advance n)) :
    SetsStatusRegister i s v v c n := by
  have hstatus := setZS_status (s.setReg .rsf v) v c false n
  rw [getReg_setReg_self] at hstatus
  exact ⟨_, h, hstatus, by rw [pc_advance, pc_setZS, pc_setReg s (by simp)],
    (changesOnlyRegs_result s .rsf v v c n).mono (by simp)⟩

theorem dividesInto_of_exec (hd : d ≠ .rpo) (hd2 : d2 ≠ .rpo) (hs : d ≠ .rsf) (hs2 : d2 ≠ .rsf)
    (h : exec i s = .next ((((s.setReg d q).setReg d2 m).setZS q false false).advance n)) :
    DividesInto i s d d2 q m n := by
  have hstatus := setZS_status ((s.setReg d q).setReg d2 m) q false false n
  rw [getReg_setReg_ne _ m hs2.symm, getReg_setReg_ne s q hs.symm] at hstatus
  exact ⟨_, h, fun hne => by simp [hd, hs, hne], by simp [hd2, hs2], hstatus,
    by rw [pc_advance, pc_setZS, pc_setReg _ hd2, pc_setReg s hd], changesOnlyRegs_two_results s d d2 q m q false n⟩

end

/-! ### Division -/

section
variable {s : State} {d d2 : Reg} {src : Source Reg} {sv q m : Word} (hd : d ≠ .rpo) (hv : src.value s 8 = .ok sv)
include hd hv

theorem exec_div (hq : quotRem (s.getReg d) sv = .ok (q, m)) : exec (Shape.dest .div (idByte d) src.raw).instr s =
    .next (((s.setReg d q).setZS q false false).advance (3 + src.size)) := by
  rw [exec_shape, finish_eq_next, runShape, divide_raw d src s sv q m hd hv hq]

theorem exec_rem (hq : quotRem (s.getReg d) sv = .ok (q, m)) : exec (Shape.dest .rem (idByte d) src.raw).instr s =
    .next (((s.setReg d m).setZS m false false).advance (3 + src.size)) := by
  rw [exec_shape, finish_eq_next, runShape, remainder_raw d src s sv q m hd hv hq]

theorem exec_dvr (hd2 : d2 ≠ .rpo) (hq : quotRem (s.getReg d) sv = .ok (q, m)) :
    exec (Shape.dvr (idByte d) (idByte d2) src.raw).instr s =
      .next ((((s.setReg d q).setReg d2 m).setZS q false false).advance (4 + src.size)) := by
  rw [exec_shape, finish_eq_next, runShape, divideRem_raw d d2 src s sv q m hd hd2 hv hq]

theorem exec_shr : exec (Shape.dest .shr (idByte d) src.raw).instr s =
    .next (((s.setReg d (sar (s.getReg d) sv)).setZS (sar (s.getReg d) sv) (shrCarry (s.getReg d) sv) false).advance
      (3 + src.size)) := by
  rw [exec_shape, finish_eq_next, runShape, shiftRight_raw d src s sv hd hv]

end

/-- R160: quotient and remainder are the truncating division of signed words, `-2^63 / -1` included. -/
theorem quotRem_eq (a : Word) {b : Word} (hb : b ≠ 0) : quotRem a b = .ok (a.sdiv b, a.srem b) := by
  by_cases hmin : a = 0x8000000000000000 ∧ b = 0xFFFFFFFFFFFFFFFF
  · obtain ⟨rfl, rfl⟩ := hmin
    decide
  · rw [quotRem_regular hb hmin, ← BitVec.toInt_sdiv_of_ne_or_ne a b (not_and_or.1 hmin), ← BitVec.toInt_srem,
      BitVec.ofInt_toInt, BitVec.ofInt_toInt]

/-- Settles O31: signed division truncates, and its integer is exact but for `-2^63 / -1`. -/
theorem divGivesTruncatedQuotient : Obligations.DivGivesTruncatedQuotient := by
  intro s d src sv hd hs hv hz hmin
  exact ⟨_, BitVec.toInt_sdiv_of_ne_or_ne _ _ (not_and_or.1 hmin),
    setsRegAndFlags_of_exec hd hs (exec_div hd hv (quotRem_eq _ hz))⟩

/-- Settles O32: the signed remainder is exact for every pair. -/
theorem remGivesTruncatedRemainder : Obligations.RemGivesTruncatedRemainder := by
  intro s d src sv hd hs hv hz
  exact ⟨_, BitVec.toInt_srem _ _, setsRegAndFlags_of_exec hd hs (exec_rem hd hv (quotRem_eq _ hz))⟩

/-- Settles O33: both results of one division. -/
theorem dvrGivesQuotientAndRemainder : Obligations.DvrGivesQuotientAndRemainder := by
  intro s d d2 src sv hd hd2 hs hs2 hv hz hmin
  exact ⟨_, _, BitVec.toInt_sdiv_of_ne_or_ne _ _ (not_and_or.1 hmin), BitVec.toInt_srem _ _,
    dividesInto_of_exec hd hd2 hs hs2 (exec_dvr hd hv hd2 (quotRem_eq _ hz))⟩

/-- Settles O34: the model's parameter for the one pair that overflows. -/
theorem minByMinusOneWraps : Obligations.MinByMinusOneWraps := by
  intro s d d2 src hd hd2 hs hs2 hv hmin
  have hq : quotRem (s.getReg d) 0xFFFFFFFFFFFFFFFF = .ok (0x8000000000000000, 0) := by rw [hmin]; exact quotRem_min
  exact ⟨setsRegAndFlags_of_exec hd hs (exec_div hd hv hq), setsRegAndFlags_of_exec hd hs (exec_rem hd hv hq),
    dividesInto_of_exec hd hd2 hs hs2 (exec_dvr hd hv hd2 hq)⟩

/-- The remainder of truncating division is zero or of the dividend's sign. -/
theorem tmod_sign (a b : Int) : a.tmod b = 0 ∨ (a.tmod b < 0 ↔ a < 0) := by
  have h := Int.sign_tmod a b
  split at h
  · exact .inl (Int.sign_eq_zero_iff_zero.1 h)
  · right
    rw [← Int.sign_eq_neg_one_iff_neg, h, Int.sign_eq_neg_one_iff_neg]

/-- Settles O35: the law of truncating division over the integers. -/
theorem divisionLaw : Obligations.DivisionLaw := by
  intro a b hb hmin
  have hb' : 0 < b.toInt.natAbs :=
    Int.natAbs_pos.2 fun h => hb (BitVec.eq_of_toInt_eq (h.trans BitVec.toInt_zero.symm))
  refine ⟨_, _, quotRem_eq a hb, ?_⟩
  rw [BitVec.toInt_sdiv_of_ne_or_ne a b (not_and_or.1 hmin), BitVec.toInt_srem]
  refine ⟨(Int.mul_tdiv_add_tmod ..).symm, ?_, tmod_sign ..⟩
  rw [Int.natAbs_tmod]
  exact Nat.mod_lt _ hb'

/-! ### Shift -/

/-- D17: from 64 on every bit shifted in is the sign. -/
theorem sar_of_le {n : Word} (v : Word) (h : 64 ≤ n.toNat) : sar v n = if v.msb then 0xFFFFFFFFFFFFFFFF else 0 := by
  rw [sar, Nat.min_eq_right h]
  apply BitVec.eq_of_getLsbD_eq
  intro k hk
  rw [BitVec.getLsbD_sshiftRight, if_neg (by omega)]
  have hones : ∀ k < 64, (0xFFFFFFFFFFFFFFFF : Word).getLsbD k = true := by decide
  cases v.msb with
  | true => rw [if_pos rfl, hones k hk]; simp [hk]
  | false => simp

theorem sar_toInt {n : Word} (v : Word) (h : n.toNat < 64) : (sar v n).toInt = v.toInt / 2 ^ n.toNat := by
  rw [sar, Nat.min_eq_left h.le, BitVec.toInt_sshiftRight, Int.shiftRight_eq_div_pow, Nat.cast_pow, Nat.cast_ofNat]

/-- D15: the carry says that a bit shifted out differs from the sign. -/
theorem shrCarry_iff (v n : Word) :
    shrCarry v n = true ↔ ∃ k, k < n.toNat ∧ k < 64 ∧ v.getLsbD k ≠ v.getLsbD 63 := by
  rw [shrCarry, List.any_eq_true, BitVec.msb_eq_getLsbD_last]
  simp only [List.mem_range, lt_min_iff, bne_iff_ne, and_assoc]

/-- Settles O36: the shift as floor division and as sign fill, and its carry. -/
theorem shrShiftsArithmetically : Obligations.ShrShiftsArithmetically := by
  intro s d src n hd hs hv
  exact ⟨_, _, sar_toInt _, sar_of_le _, shrCarry_iff _ _, setsRegAndFlags_of_exec hd hs (exec_shr hd hv)⟩

/-- Settles O37: no bit of 0 differs from its sign, no bit is shifted out by 0, and from 64 on the amount is 64. -/
theorem shrCarrySourcePoints : Obligations.ShrCarrySourcePoints := by
  refine ⟨fun n => ?_, by decide, fun v => ⟨BitVec.sshiftRight_zero, rfl⟩, fun v n h => ?_⟩
  · rw [Bool.eq_false_iff, ne_eq, shrCarry_iff]
    rintro ⟨k, -, -, hk⟩
    exact hk (by simp)
  · have hn : min n.toNat 64 = min (64 : Word).toNat 64 := Nat.min_eq_right h
    simp only [sar, shrCarry, hn, and_self]

end Sys2Proof.Machine
end

section
/-!
SUPPORT. Sign extension bit by bit, the moves and the one-operand instructions (44_signed_moves.md, 45_sign_extend_negate.md), and
`rsf` as a destination (10_state.md R33).
-/

namespace Sys2Proof.Machine

/-! ### Sign extension and negation -/

/-- The extension of the low `w` bits, bit by bit. -/
theorem isSignExtended_sext {w : Nat} (hw : 0 < w) (v : Word) : IsSignExtended w v (sext w v) := by
  intro k hk
  rw [sext, BitVec.getLsbD_signExtend, BitVec.msb_eq_getLsbD_last, BitVec.getLsbD_setWidth, BitVec.getLsbD_setWidth]
  split <;> simp [*]

/-- Extending again changes nothing: the low bits, which alone are read, are kept. -/
theorem sext_sext {w : Nat} (hw : w ≤ 64) (v : Word) : sext w (sext w v) = sext w v := by
  have hlow : (sext w v).setWidth w = v.setWidth w := by
    apply BitVec.eq_of_getLsbD_eq
    intro k hk
    rw [BitVec.getLsbD_setWidth, sext, BitVec.getLsbD_signExtend, if_pos hk]
    simp [hk, Nat.lt_of_lt_of_le hk hw]
  rw [sext, hlow, sext]

theorem negate_eq_neg (v : Word) : negate v = -v := BitVec.zero_sub v

theorem negate_negate (v : Word) : negate (negate v) = v := by
  rw [negate_eq_neg, negate_eq_neg, BitVec.neg_neg]

/-- The extensions do twice what they do once. -/
theorem UnaryOp.fn_fn {op : UnaryOp} (h : op ≠ .neg) (v : Word) : op.fn (op.fn v) = op.fn v := by
  cases op with
  | exb | exw | exd => exact sext_sext (by decide) v
  | neg => exact absurd rfl h

/-- The same flags twice are those flags. -/
theorem setFlags_setFlags (z c n o : Bool) (v : Word) : setFlags z c n o (setFlags z c n o v) = setFlags z c n o v :=
  setFlags_congr z c n o (setFlags_sticky z c n o v)

/-! ### Moves -/

theorem movesSlice_of_exec {i : Instr} {s : State} {w : Nat} {d : Reg} {sv : Word} {n : Nat} (hw : 0 < w) (hd : d ≠ .rpo)
    (h : exec i s = .next ((s.setReg d (sext w sv)).advance n)) : MovesSlice i s w d sv n := by
  refine ⟨_, h, ?_, by rw [pc_advance, pc_setReg s hd], fun r hr => ?_, ⟨fun _ => rfl, rfl⟩, ⟨rfl, rfl, rfl⟩, rfl⟩
  · simpa [hd] using isSignExtended_sext hw sv
  · simp only [List.mem_cons, List.not_mem_nil, or_false, not_or] at hr
    simp [hr]

/-- Settles O38: one update of the destination, of the width of the mnemonic. -/
theorem movesSignExtendTheSlice : Obligations.MovesSignExtendTheSlice := by
  intro s d src sv hd
  refine ⟨fun hv => ?mvb, fun hv => ?mvw, fun hv => ?mvd⟩
  all_goals
    refine movesSlice_of_exec (by decide) hd ?_
    rw [exec_shape, finish_eq_next, runShape]
    exact move_raw _ d src s sv hd hv

/-! ### One-operand instructions -/

theorem exec_unary (op : UnaryOp) (s : State) {d : Reg} (hd : d ≠ .rpo) :
    exec (Shape.unary op (idByte d)).instr s =
      .next (((s.setReg d (op.fn (s.getReg d))).setZS (op.fn (s.getReg d)) false false).advance 3) := by
  rw [exec_shape, finish_eq_next, runShape_unary, unary_raw op.fn d s hd]

theorem unary_setsRegAndFlags (op : UnaryOp) (s : State) {d : Reg} (hd : d ≠ .rpo) (hs : d ≠ .rsf) :
    SetsRegAndFlags (Shape.unary op (idByte d)).instr s d (op.fn (s.getReg d)) false 3 :=
  setsRegAndFlags_of_exec hd hs (exec_unary op s hd)

/-- Settles O39: the result is the extension of the register's own low bits. -/
theorem extendsInPlace : Obligations.ExtendsInPlace := fun s _ hd hs =>
  ⟨⟨_, isSignExtended_sext (by decide) _, unary_setsRegAndFlags .exb s hd hs⟩,
    ⟨_, isSignExtended_sext (by decide) _, unary_setsRegAndFlags .exw s hd hs⟩,
    ⟨_, isSignExtended_sext (by decide) _, unary_setsRegAndFlags .exd s hd hs⟩⟩

/-- Settles O40: `0 - v` is the two's complement. -/
theorem negNegatesModulo : Obligations.NegNegatesModulo := fun s d hd hs =>
  ⟨negate (s.getReg d), by rw [negate_eq_neg, BitVec.toNat_neg], unary_setsRegAndFlags .neg s hd hs⟩

/-- Settles O41: negation is an involution, extension idempotent, and `SetZS` with the same result leaves `rsf` alone. -/
theorem unaryTwice : Obligations.UnaryTwice := by
  intro s d hd hs
  constructor
  · obtain ⟨t, ht, htd, -⟩ := unary_setsRegAndFlags .neg s hd hs
    obtain ⟨u, hu, hud, ⟨hz, -, hn, -⟩, -⟩ := unary_setsRegAndFlags .neg t hd hs
    have hback : UnaryOp.neg.fn (t.getReg d) = s.getReg d := by rw [htd]; exact negate_negate _
    rw [hback] at hud hz hn
    exact ⟨t, u, ht, hu, hud, hz, hn⟩
  · intro op hop
    refine ⟨_, _, exec_unary op s hd, exec_unary op _ hd, ?_, ?_⟩
    · simp [hd, hs, op.fn_fn hop]
    · simp [hd, hs, hs.symm, op.fn_fn hop, setFlags_setFlags]

/-! ### `rsf` as a destination -/

/-- Settles O42: `SetZS` reads the `rsf` that the result was written to. -/
theorem statusRegisterAsDestination : Obligations.StatusRegisterAsDestination := by
  intro s d src sv q m hv
  have hrsf : Reg.rsf ≠ .rpo := by simp
  have hneg := setsStatusRegister_of_exec (exec_unary .neg s hrsf)
  rw [show UnaryOp.neg.fn (s.getReg .rsf) = -s.getReg .rsf from negate_eq_neg _] at hneg
  refine ⟨fun hq => ⟨?div, ?rem, fun hd => ⟨_, exec_dvr hrsf hv hd hq, ?status, fun hs => ?second, ?pc, ?frame⟩⟩,
    fun hd hs hq => ⟨_, exec_dvr hd hv hrsf hq, ?status', ?first', ?pc', ?frame'⟩,
    setsStatusRegister_of_exec (exec_shr hrsf hv), setsStatusRegister_of_exec (exec_unary .exb s hrsf),
    setsStatusRegister_of_exec (exec_unary .exw s hrsf), setsStatusRegister_of_exec (exec_unary .exd s hrsf), hneg⟩
  case div => exact setsStatusRegister_of_exec (exec_div hrsf hv hq)
  case rem => exact setsStatusRegister_of_exec (exec_rem hrsf hv hq)
  case status =>
    have h := setZS_status ((s.setReg .rsf q).setReg d m) q false false (4 + src.size)
    rw [getReg_setReg, getReg_setReg_self] at h
    simpa only [eq_comm] using h
  case second => simp [hd, hs]
  case pc => rw [pc_advance, pc_setZS, pc_setReg _ hd, pc_setReg s hrsf]
  case frame => exact (changesOnlyRegs_two_results s .rsf d q m q false (4 + src.size)).mono (by simp)
  case status' =>
    have h := setZS_status ((s.setReg d q).setReg .rsf m) q false false (4 + src.size)
    rwa [getReg_setReg_self] at h
  case first' => simp [hd, hs]
  case pc' => rw [pc_advance, pc_setZS, pc_setReg _ hrsf, pc_setReg s hd]
  case frame' => exact (changesOnlyRegs_two_results s d .rsf q m q false (4 + src.size)).mono (by simp)

end Sys2Proof.Machine
end

section
/-!
SUPPORT. The decimal writes on register operands (46_signed_write.md R201), what operands deliver, and the host's direct access
(50_interfaces.md R227, R229).
-/

namespace Sys2Proof.Machine

/-! ### The number written -/

theorem signedLow_64 (v : Word) : signedLow 64 v = v.toInt := by rw [signedLow, BitVec.setWidth_eq]

theorem signedLow_8 (v : Word) : signedLow 8 v = (BitVec.ofNat 8 v.toNat).toInt := by
  rw [signedLow, BitVec.ofNat_toNat]

/-! ### The writes -/

theorem keepsRegsBut_advance (s : State) (n : Nat) : KeepsRegsBut [.rpo] s (s.advance n) := fun r hr => by
  rw [advance_getReg, if_neg (by simpa using hr)]

theorem writes_consoleWrite {i : Instr} {s : State} {text : List Byte} {n : Nat}
    (h : exec i s = .next ((s.consoleWrite text).advance n)) : Writes i s text [] n :=
  ⟨_, h, rfl, (List.append_nil _).symm, rfl, pc_advance _ n, keepsRegsBut_advance _ n, ⟨fun _ => rfl, rfl⟩, rfl⟩

theorem writes_fileWrite {i : Instr} {s : State} {text : List Byte} {n : Nat}
    (h : exec i s = .next ((s.fileWrite text).advance n)) : Writes i s [] text n :=
  ⟨_, h, (List.append_nil _).symm, rfl, rfl, pc_advance _ n, keepsRegsBut_advance _ n, ⟨fun _ => rfl, rfl⟩, rfl⟩

/-- Settles O43: the console write of the mnemonic's width. -/
theorem consoleWritesAppendDecimal : Obligations.ConsoleWritesAppendDecimal := by
  intro s src sv
  refine ⟨fun hv => ?_, fun hv => ?_⟩
  · rw [← signedLow_64]
    apply writes_consoleWrite
    rw [exec_shape, finish_eq_next, runShape, writeConsole_raw 64 src s sv hv]
  · rw [← signedLow_8]
    apply writes_consoleWrite
    rw [exec_shape, finish_eq_next, runShape, writeConsole_raw 8 src s sv hv]

/-- Settles O44: the file write of the mnemonic's width, past the device check. -/
theorem fileWritesAppendDecimal : Obligations.FileWritesAppendDecimal := by
  intro s src sv hopen
  refine ⟨fun hv => ?_, fun hv => ?_⟩
  · rw [← signedLow_64]
    apply writes_fileWrite
    rw [exec_shape, finish_eq_next, runShape, writeFile_raw 64 src s sv hopen hv]
  · rw [← signedLow_8]
    apply writes_fileWrite
    rw [exec_shape, finish_eq_next, runShape, writeFile_raw 8 src s sv hopen hv]

/-! ### Operands and the host -/

/-- Settles O47: each class by its equation. -/
theorem operandClassesDeliver : Obligations.OperandClassesDeliver :=
  fun _ _ _ _ => ⟨rfl, rfl, rfl, rfl, rfl, rfl, rfl⟩

/-- Settles O53: the register rules, and a file write with the sink the host left open or closed. -/
theorem hostAccessBetweenSteps : Obligations.HostAccessBetweenSteps := by
  intro s r v content
  refine ⟨getReg_setReg_self s r v, fun q hq => ?frame, ⟨fun _ => rfl, rfl⟩, ⟨rfl, rfl, rfl⟩, ?written, rfl, ?closed⟩
  case frame => exact getReg_setReg_ne s v (by simpa using hq)
  case written => exact (fileWritesAppendDecimal (s.setFileSink (some content)) (.lit v) v rfl).1 rfl
  case closed => exact (fileOperationExactly (.wfnL v) (s.setFileSink none) rfl).2 ⟨rfl, rfl⟩

end Sys2Proof.Machine
end
